-- ==== Sys2Proof/Word.lean ====
section
/-! DEFINITION. The word types of the engine (00_scope.md R9, R10): every value is an unsigned integer. -/

namespace Sys2Proof

/-- A 64-bit value: a host-visible register, a command word, a hash value (10_state.md R21). -/
abbrev Word := BitVec 64

/-- A byte, as in a digest (00_scope.md R14) and in the opcode field (30_encoding.md R91). -/
abbrev Byte := BitVec 8

/-- A field of a 64-bit value: `v` in the bits from `lsb` up, 0 elsewhere (00_scope.md R9). -/
def place {n : Nat} (v : BitVec n) (lsb : Nat) : Word := v.setWidth 64 <<< lsb

end Sys2Proof
end

