-- ==== Sys2Proof/Config.lean ====
section
/-! DEFINITION. What an implementation fixes (00_scope.md R7) and the values the spec leaves open
(93_implementation_defined.md I1 to I9). A constant without a body is a free value: no proof can see what it is. -/

namespace Sys2Proof

/-- The legal storage word widths S (00_scope.md R7, 92_eei_decisions.md D3). -/
inductive StorageWidth where
  | w8
  | w16
  | w32
  | w64
deriving DecidableEq, Repr

/-- S in bits. -/
def StorageWidth.bits : StorageWidth → Nat
  | .w8 => 8
  | .w16 => 16
  | .w32 => 32
  | .w64 => 64

/-- The build parameters S and MAX_WORDS (00_scope.md R7). MAX_WORDS has the 32 bits of its field of PARAMS
(10_state.md R23); `Build.legal` says that it is not 0. ENGINE_BASE is not needed: the model works in offsets (93 I3). -/
structure Build where
  width    : StorageWidth
  maxWords : BitVec 32
deriving DecidableEq, Repr

/-- The build the spec's vectors use (00_scope.md R7, last column). DESIGN CHOICE: State.reset takes it; unsafe for a
statement about State.reset alone, safe for one over all states (log 1). -/
def Config.vectorBuild : Build := { width := .w64, maxWords := 8192#32 }

/-- The content of storage word `j` while it is unspecified: after reset, after RELEASE, and at or above NUM_WORDS
(10_state.md R48; 40_control.md R124; 93 I7, I8, I9). A free value, fresh for each `epoch` (log 3). -/
opaque Config.unspecifiedWord (epoch j : Nat) : Word

/-- The host's digest function, an opaque black box (00_scope.md R6, R14; 93 I6): key bytes and seed to 16 bytes (log 10). -/
opaque Config.digest128 (key : List Byte) (seed : Nat) : Vector Byte 16

/-- HOST_LN, the natural logarithm of the host's binary64 library (92_eei_decisions.md D36, 93 I5): a finite positive
binary64 value to a finite binary64 value (log 11). -/
opaque Config.hostLn (x : Rat) : Rat

end Sys2Proof
end

