-- ==== Sys2Proof/Syntax.lean ====
section
/-! DEFINITION. The commands, the engine's instructions (00_scope.md R12): one constructor for each row of
spec/opcode_table.json. No command has an operand inside its word (30_encoding.md R90, R92). -/

namespace Sys2Proof

/-- The fourteen commands of 30_encoding.md R93. -/
inductive Instr where
  /-- NOP, 40_control.md R121. -/
  | nop
  /-- CONFIGURE, 40_control.md R122. -/
  | configure
  /-- RELEASE, 40_control.md R124. -/
  | release
  /-- CLEAR_ERR, 40_control.md R125. -/
  | clearErr
  /-- VEC_GET, 42_counter_vector.md R176. -/
  | vecGet
  /-- VEC_SET, 42_counter_vector.md R177. -/
  | vecSet
  /-- VEC_INC, 42_counter_vector.md R178. -/
  | vecInc
  /-- VEC_DEC, 42_counter_vector.md R179. -/
  | vecDec
  /-- VEC_READ_WORD, 42_counter_vector.md R180. -/
  | vecReadWord
  /-- HS_LOAD, 41_hash_stream.md R152. -/
  | hsLoad
  /-- HS_NEXT, 41_hash_stream.md R153. -/
  | hsNext
  /-- FLT_ADD, 43_filter.md R214. -/
  | fltAdd
  /-- FLT_REMOVE, 43_filter.md R215. -/
  | fltRemove
  /-- FLT_CONTAINS, 43_filter.md R216. -/
  | fltContains
deriving DecidableEq, Repr

end Sys2Proof
end

