-- ==== Sys2Proof/WellFormed.lean ====
section
/-! DEFINITION. Well-formedness: of a command, of a command word and of a build. -/

namespace Sys2Proof

/-- A command has no operand field (30_encoding.md R90, R92), so every command is well formed. -/
def Instr.wellFormed : Instr → Bool
  | .nop | .configure | .release | .clearErr => true
  | .vecGet | .vecSet | .vecInc | .vecDec | .vecReadWord => true
  | .hsLoad | .hsNext => true
  | .fltAdd | .fltRemove | .fltContains => true

/-- The opcodes of 30_encoding.md R93, as its table writes them. -/
def assignedOpcodes : List Byte :=
  [0x00#8, 0x01#8, 0x02#8, 0x03#8, 0x20#8, 0x21#8, 0x10#8, 0x11#8, 0x12#8, 0x13#8, 0x14#8, 0x30#8, 0x31#8, 0x32#8]

/-- RSV = CMD[63:8] must be 0 (30_encoding.md R91). -/
def commandReservedClear (c : Word) : Bool := c.extractLsb 63 8 == 0#56

/-- OPC = CMD[7:0] is an assigned opcode (30_encoding.md R93). -/
def commandOpcodeAssigned (c : Word) : Bool := assignedOpcodes.contains (c.extractLsb 7 0)

/-- A legal command word (30_encoding.md R94). -/
def commandLegal (c : Word) : Bool := commandReservedClear c && commandOpcodeAssigned c

/-- 1 ≤ MAX_WORDS ≤ 2^32 − 1 (00_scope.md R7); the upper bound is the field's width, and S is legal by its type. -/
def Build.legal (b : Build) : Bool := b.maxWords != 0#32

end Sys2Proof
end

