-- ==== Sys2Proof/Decode.lean ====
section
/-! DEFINITION. Decoding a command word, total on all 64-bit words (30_encoding.md R90 to R96), then the encoder. -/

namespace Sys2Proof

/-- Why a command word is illegal (30_encoding.md R94). -/
inductive DecodeError where
  /-- CMD[63:8] ≠ 0, whatever CMD[7:0]. -/
  | reservedBitsSet
  /-- CMD[63:8] = 0 and CMD[7:0] is one of the 242 unassigned values. -/
  | unassignedOpcode
deriving DecidableEq, Repr

/-- OPC, bits [7:0] of a command word (30_encoding.md R91). -/
def opcField (c : Word) : Byte := c.extractLsb 7 0

/-- RSV, bits [63:8] of a command word (30_encoding.md R91). -/
def rsvField (c : Word) : BitVec 56 := c.extractLsb 63 8

/-- The opcode map of 30_encoding.md R93, from opcode to command. -/
def instrOfOpcode (opc : Byte) : Option Instr :=
  if opc = 0x00#8 then some .nop
  else if opc = 0x01#8 then some .configure
  else if opc = 0x02#8 then some .release
  else if opc = 0x03#8 then some .clearErr
  else if opc = 0x10#8 then some .vecGet
  else if opc = 0x11#8 then some .vecSet
  else if opc = 0x12#8 then some .vecInc
  else if opc = 0x13#8 then some .vecDec
  else if opc = 0x14#8 then some .vecReadWord
  else if opc = 0x20#8 then some .hsLoad
  else if opc = 0x21#8 then some .hsNext
  else if opc = 0x30#8 then some .fltAdd
  else if opc = 0x31#8 then some .fltRemove
  else if opc = 0x32#8 then some .fltContains
  else none

/-- Decoding is total (30_encoding.md R94): a command, or the reason the word is illegal. -/
def decode (c : Word) : Except DecodeError Instr :=
  if rsvField c = 0#56 then
    match instrOfOpcode (opcField c) with
    | some i => .ok i
    | none => .error .unassignedOpcode
  else .error .reservedBitsSet

/-- The opcode map of 30_encoding.md R93, from command to opcode. -/
def opcode : Instr → Byte
  | .nop => 0x00#8
  | .configure => 0x01#8
  | .release => 0x02#8
  | .clearErr => 0x03#8
  | .vecGet => 0x10#8
  | .vecSet => 0x11#8
  | .vecInc => 0x12#8
  | .vecDec => 0x13#8
  | .vecReadWord => 0x14#8
  | .hsLoad => 0x20#8
  | .hsNext => 0x21#8
  | .fltAdd => 0x30#8
  | .fltRemove => 0x31#8
  | .fltContains => 0x32#8

/-- The encoding string of 30_encoding.md R91: 56 bits 0, then OPC. -/
def encode (i : Instr) : Word := place (opcode i) 0

/-- The command of a table word: bit 0 is the least significant bit of the one 64-bit word (30_encoding.md R90). A value
that needs more than 64 bits is no command word. -/
def decodeTableWord (nbits w : Nat) : Option Instr :=
  if w % 2 ^ nbits < 2 ^ 64 then
    match decode (BitVec.ofNat 64 (w % 2 ^ nbits)) with
    | .ok i => some i
    | .error _ => none
  else none

end Sys2Proof
end

