-- ==== Sys2Proof/Machine/State.lean ====
section
/-! DEFINITION. The engine's state (10_state.md R20), its host's side (R40), the events a host can cause, the reasons a step
can stop, and the state after reset (R47). Everything is plain data. -/

namespace Sys2Proof.Machine

/-- The sixteen host-visible registers (10_state.md R21). -/
inductive Reg where
  | id
  | params
  | cfgMode
  | cfgNumElements
  | cfgElementBits
  | cfgNumHashes
  | geom
  | status
  | argIndex
  | argValue
  | digest0
  | digest1
  | hsBase
  | hsIncr
  | result
  | cmd
deriving DecidableEq, Repr

/-- One host access: its width in bits, its byte offset from ENGINE_BASE and, for a write, its data. Which accesses
the engine admits is 20_memory.md R64. -/
inductive Access where
  | read (width offset : Nat)
  | write (width offset : Nat) (data : Word)
deriving DecidableEq, Repr

/-- What can reach the engine from outside (20_memory.md R69, R70; 70_reset_and_hazards.md R270, R272). -/
inductive HostEvent where
  /-- A host access, performed whole before the next event (R70). -/
  | access (a : Access)
  /-- Reset is applied and released (R270). `running` is the command word it abandons, if one is in progress, and `held`
  the accesses the engine was holding at the bus (R272). Power-up is this event too. -/
  | reset (running : Option Word) (held : List Access)
  /-- An access that was held at the bus when reset arrived: what the bus answers it is the platform's matter (R272). -/
  | heldAtReset (a : Access)
deriving DecidableEq, Repr

/-- One listed storage word: its word index and its value (20_memory.md R60: word-addressed, no byte addresses). -/
abbrev Cell := Nat × Word

/-- The machine. The fields from `cfgMode` to `words` are the engine's state, name for name that of 10_state.md R20;
`build` is fixed; `storageEpoch`, `pending` and `observed` are the model's own (log 3, 5). -/
structure State where
  /-- The build parameters S and MAX_WORDS (00_scope.md R7). No step changes them (log 1). -/
  build          : Build
  /-- CFG_MODE.MODE (R24). -/
  cfgMode        : BitVec 2
  /-- CFG_NUM_ELEMENTS.N (R25). -/
  cfgNumElements : Word
  /-- CFG_ELEMENT_BITS.W (R26). -/
  cfgElementBits : BitVec 8
  /-- CFG_NUM_HASHES.K (R27). -/
  cfgNumHashes   : BitVec 32
  /-- STATUS.CONFIGURED (R30). -/
  configured     : Bool
  /-- GEOM.EPW (R29). -/
  epw            : BitVec 8
  /-- GEOM.NUM_WORDS (R29). -/
  numWords       : BitVec 32
  /-- STATUS.HS_VALID (R30). -/
  hsValid        : Bool
  /-- STATUS.ERR_STICKY (R30). -/
  errSticky      : Bool
  /-- STATUS.ERR (R30). -/
  err            : BitVec 4
  /-- STATUS.ERR_OP (R30). -/
  errOp          : Byte
  /-- ARG_INDEX (R31). -/
  argIndex       : Word
  /-- ARG_VALUE (R32). -/
  argValue       : Word
  /-- DIGEST_0 (R33). -/
  digest0        : Word
  /-- DIGEST_1 (R34). -/
  digest1        : Word
  /-- HS_BASE (R35). -/
  hsBase         : Word
  /-- HS_INCR (R36). -/
  hsIncr         : Word
  /-- RESULT (R37). -/
  result         : Word
  /-- The counter storage in use (R42), in the canonical form `Memory.wf`: a word in use that is not listed is 0; a word
  not in use is unspecified and is not listed (log 2). -/
  words          : List Cell
  /-- How often the storage content has become unspecified anew (log 3). -/
  storageEpoch   : Nat
  /-- The host events not yet performed, in the order the engine receives them (R40, R70). -/
  pending        : List HostEvent
  /-- The values the host's reads returned, oldest first (70_reset_and_hazards.md R288). -/
  observed       : List Word
deriving DecidableEq, Repr

/-- Why the machine stops with a fault. An ERROR of a command is no fault: it is a next state (60_exceptions.md R240). -/
inductive Fault where
  /-- Raised by the storage commands (VEC_*, FLT_*) where they would reach a storage word at MAX_WORDS or above, which does
  not exist (10_state.md R42, 20_memory.md R60). Safe: no state that meets the invariant of R46 raises it (log 4). -/
  | noSuchWord
deriving DecidableEq, Repr

/-- Why the machine has no step. -/
inductive Refusal where
  /-- Raised by exec for a command that has no meaning yet. Safe. -/
  | notModelled (mnemonic : String)
  /-- Raised by an access that 20_memory.md R64 does not admit: a bus error, whose response is the platform's. "A model
  refuses such an access". Safe (log 6). -/
  | busError
  /-- Raised by an access that was held at the bus when reset arrived (70_reset_and_hazards.md R272; 93 I16: refuse).
  Safe (log 7). -/
  | heldAtReset
deriving DecidableEq, Repr

/-- The state after reset of an engine with build `b` (10_state.md R47, R48; 70_reset_and_hazards.md R271). -/
def State.resetOf (b : Build) : State :=
  { build := b, cfgMode := 0#2, cfgNumElements := 0#64, cfgElementBits := 4#8, cfgNumHashes := 0#32,
    configured := false, epw := 0#8, numWords := 0#32, hsValid := false, errSticky := false, err := 0#4, errOp := 0#8,
    argIndex := 0#64, argValue := 0#64, digest0 := 0#64, digest1 := 0#64, hsBase := 0#64, hsIncr := 0#64,
    result := 0#64, words := [], storageEpoch := 0, pending := [], observed := [] }

/-- The state after reset with the build of the spec's vectors (log 1), no host event pending and none observed. -/
def State.reset : State := State.resetOf Config.vectorBuild

end Sys2Proof.Machine
end

