-- ==== Sys2Proof/Machine/Ops.lean ====
section
/-! DEFINITION. The named operations over the counter storage, and the two ends of a command: an error taken (60_exceptions.md
R241, the engine's only exception; there is no return from one, R248) and a completion (R242). -/

namespace Sys2Proof.Machine

/-- S, the storage word width in bits (00_scope.md R7). -/
def State.wordBits (s : State) : Nat := s.build.width.bits

/-- The S-bit word of ones in a 64-bit value. -/
def State.wordMask (s : State) : Word := BitVec.ofNat 64 (2 ^ s.wordBits - 1)

/-- The word listed at index `j`; 0 where none is listed. -/
def Memory.read : List Cell → Nat → Word
  | [], _ => 0#64
  | (k, w) :: rest, j => if k = j then w else Memory.read rest j

/-- The list without the word at index `j`. -/
def Memory.erase (ws : List Cell) (j : Nat) : List Cell := ws.filter fun c => c.1 != j

/-- The list with `v` put at index `j` in rising order. -/
def Memory.insert : List Cell → Nat → Word → List Cell
  | [], j, v => [(j, v)]
  | (k, w) :: rest, j, v => if j < k then (j, v) :: (k, w) :: rest else (k, w) :: Memory.insert rest j v

/-- Writing `v` at index `j`; writing what an unlisted word in use reads as (0) removes the entry. -/
def Memory.write (ws : List Cell) (j : Nat) (v : Word) : List Cell :=
  if v = 0#64 then Memory.erase ws j else Memory.insert (Memory.erase ws j) j v

/-- The canonical form of the storage: indices strictly rising, and no listed word 0. -/
abbrev Memory.wf (ws : List Cell) : Prop := (ws.map Prod.fst).Pairwise (· < ·) ∧ ∀ c ∈ ws, c.2 ≠ 0#64

/-- Word `j` is in use: it holds counters of the active configuration (10_state.md R42). -/
def State.inUse (s : State) (j : Nat) : Bool := s.configured && decide (j < s.numWords.toNat)

/-- MemRead(j, S) (00_scope.md R11): S bits, zero-extended. The content of a word that is not in use is unspecified
(10_state.md R48; 93 I7 to I9): a free value (log 3). -/
def memRead (s : State) (j : Nat) : Word :=
  if s.inUse j then Memory.read s.words j &&& s.wordMask
  else Config.unspecifiedWord s.storageEpoch j &&& s.wordMask

/-- MemWrite(j, S, v) (00_scope.md R11): the S bits of `v`. No command writes a word that is not in use (10_state.md R42);
its content stays unspecified (log 4). -/
def memWrite (s : State) (j : Nat) (v : Word) : State :=
  if s.inUse j then { s with words := Memory.write s.words j (v &&& s.wordMask) } else s

/-- The words `js` exist: their indices lie below MAX_WORDS (20_memory.md R60). -/
def wordsExist (s : State) (js : List Nat) : Bool := js.all fun j => decide (j < s.build.maxWords.toNat)

/-- The error codes of 60_exceptions.md R243 that a command raises. -/
inductive ErrorCode where
  | illegalCommand
  | notConfigured
  | alreadyConfigured
  | cfgBadMode
  | cfgBadWidth
  | cfgBadSize
  | cfgBadHashes
  | indexError
  | modeError
  | streamNotLoaded
deriving DecidableEq, Repr

/-- The STATUS.ERR value of an error (60_exceptions.md R243); 0 is OK and 11 to 15 are never produced. -/
def errorBits : ErrorCode → BitVec 4
  | .illegalCommand => 1#4
  | .notConfigured => 2#4
  | .alreadyConfigured => 3#4
  | .cfgBadMode => 4#4
  | .cfgBadWidth => 5#4
  | .cfgBadSize => 6#4
  | .cfgBadHashes => 7#4
  | .indexError => 8#4
  | .modeError => 9#4
  | .streamNotLoaded => 10#4

/-- raise Error(CODE) by a command whose opcode field is `op` (60_exceptions.md R241): three STATUS fields, nothing else. -/
def raiseError (op : Byte) (code : ErrorCode) (s : State) : State :=
  { s with err := errorBits code, errSticky := true, errOp := op }

/-- complete() (60_exceptions.md R242). -/
def complete (s : State) : State := { s with err := 0#4 }

/-- A command's own checks come first, and the first that fails raises its error (40_control.md R120); `effect` is the rest
of the command. -/
def afterChecks (i : Instr) (check : Option ErrorCode) (s : State)
    (effect : Host.Outcome State Fault Refusal) : Host.Outcome State Fault Refusal :=
  match check with
  | some code => .next (raiseError (opcode i) code s)
  | none => effect

/-- The end of a command that reached the storage words `js` and left the state `t`. A word that does not exist is a fault
by name (log 4). -/
def completeOnWords (s : State) (js : List Nat) (t : State) : Host.Outcome State Fault Refusal :=
  if wordsExist s js then .next (complete t) else .fault .noSuchWord

end Sys2Proof.Machine
end

