-- ==== Sys2Proof/Machine/Operands.lean ====
section
/-! DEFINITION. Where a command's operands come from (30_encoding.md R92): counters packed in storage words (42_counter_vector.md
R170 to R174), and the hash stream with its slot indices (41_hash_stream.md R151; 43_filter.md R211). -/

namespace Sys2Proof.Machine

/-- The operating modes of CFG_MODE.MODE (10_state.md R24). -/
inductive Mode where
  | raw
  | bitset
  | counting
  | reserved
deriving DecidableEq, Repr

/-- The mode a MODE field names (10_state.md R24). -/
def modeOfBits (m : BitVec 2) : Mode :=
  if m = 0#2 then .raw else if m = 1#2 then .bitset else if m = 2#2 then .counting else .reserved

/-- The mode in CFG_MODE. -/
def State.mode (s : State) : Mode := modeOfBits s.cfgMode

/-- N (00_scope.md R8). -/
def State.numElements (s : State) : Nat := s.cfgNumElements.toNat

/-- W (00_scope.md R8). -/
def State.elementBits (s : State) : Nat := s.cfgElementBits.toNat

/-- k (00_scope.md R8). -/
def State.numHashes (s : State) : Nat := s.cfgNumHashes.toNat

/-- ceil_div (00_scope.md R10). -/
def ceilDiv (a b : Nat) : Nat := (a + b - 1) / b

/-- word_index(i) (42_counter_vector.md R171). -/
def wordIndex (s : State) (i : Nat) : Nat := i / s.epw.toNat

/-- slot(i) (42_counter_vector.md R171). -/
def slotInWord (s : State) (i : Nat) : Nat := i % s.epw.toNat

/-- lsb(i), the lowest bit of counter i's field (42_counter_vector.md R171): slot 0 is the most significant field. -/
def fieldLsb (s : State) (i : Nat) : Nat := s.wordBits - s.elementBits * (slotInWord s i + 1)

/-- MASK = 2^W − 1, all ones at W = S (42_counter_vector.md R172); also MAXV. -/
def State.fieldMask (s : State) : Word := BitVec.ofNat 64 (2 ^ s.elementBits - 1)

/-- FieldGet(i) (42_counter_vector.md R173), zero-extended to 64 bits. -/
def fieldGet (s : State) (i : Nat) : Word := (memRead s (wordIndex s i) >>> fieldLsb s i) &&& s.fieldMask

/-- A storage word with the field of counter i cleared and `v` put there (42_counter_vector.md R174). -/
def replaceField (s : State) (i : Nat) (w v : Word) : Word :=
  (w &&& ~~~(s.fieldMask <<< fieldLsb s i)) ||| (v <<< fieldLsb s i)

/-- FieldPut(i, v): read-modify-write of a single word (42_counter_vector.md R174). -/
def fieldPut (s : State) (i : Nat) (v : Word) : State :=
  memWrite s (wordIndex s i) (replaceField s i (memRead s (wordIndex s i)) v)

/-- A value clamped into [0, MAXV] (42_counter_vector.md R177). -/
def clampToMax (s : State) (v : Word) : Word := if s.fieldMask < v then s.fieldMask else v

/-- Saturating increment, `top` the largest value (42_counter_vector.md R178; 43_filter.md R214). -/
def saturatingInc (top v : Word) : Word := if v = top then top else v + 1#64

/-- Saturating decrement (42_counter_vector.md R179; 43_filter.md R215). -/
def saturatingDec (v : Word) : Word := if v = 0#64 then 0#64 else v - 1#64

/-- base0 = DIGEST_0 (41_hash_stream.md R151). -/
def streamBase (s : State) : Word := s.digest0

/-- inc = { DIGEST_0[31:0], DIGEST_1[63:32] } (41_hash_stream.md R151; 90_conflicts.md C1). -/
def streamIncr (s : State) : Word := s.digest0.extractLsb 31 0 ++ s.digest1.extractLsb 63 32

/-- The stream's base after `k` values have been emitted (41_hash_stream.md R153; 43_filter.md R214). -/
def streamAdvance (inc : Word) : Nat → Word → Word
  | 0, b => b
  | k + 1, b => streamAdvance inc k (b + inc)

/-- The slot indices of `k` consecutive values of a stream, each the 64-bit value modulo `n` (43_filter.md R211). -/
def slotSequence (n : Nat) (inc : Word) : Nat → Word → List Nat
  | 0, _ => []
  | k + 1, b => b.toNat % n :: slotSequence n inc k (b + inc)

/-- idx_0, …, idx_(k−1), the slot indices of a filter command (43_filter.md R211). -/
def filterSlots (s : State) : List Nat := slotSequence s.numElements (streamIncr s) s.numHashes (streamBase s)

/-- RESULT receives a value (10_state.md R37). -/
def setResult (v : Word) (s : State) : State := { s with result := v }

/-- The hash stream receives a state and becomes valid (41_hash_stream.md R152; 43_filter.md R212). -/
def setStream (base incr : Word) (s : State) : State := { s with hsBase := base, hsIncr := incr, hsValid := true }

/-- What every filter command leaves in the stream: as one HS_LOAD and k HS_NEXTs would (43_filter.md R212). -/
def filterStream (s t : State) : State :=
  setStream (streamAdvance (streamIncr s) s.numHashes (streamBase s)) (streamIncr s) t

end Sys2Proof.Machine
end

