-- ==== Sys2Proof/Machine/Flags.lean ====
section
/-! DEFINITION. STATUS, the engine's only flags (10_state.md R30, R41), and the checks of the commands, in the order of
60_exceptions.md R246. -/

namespace Sys2Proof.Machine

/-- STATUS as the host reads it (10_state.md R30). -/
def statusWord (s : State) : Word :=
  place s.errOp 8 ||| place s.err 4 ||| place (BitVec.ofBool s.errSticky) 2 ||| place (BitVec.ofBool s.hsValid) 1 |||
    place (BitVec.ofBool s.configured) 0

/-- W is legal for the mode (40_control.md R122). -/
def widthLegal (s : State) : Bool :=
  match s.mode with
  | .raw => decide (1 ≤ s.elementBits ∧ s.elementBits ≤ s.wordBits)
  | .bitset => decide (s.elementBits = 1)
  | .counting => decide (s.elementBits = 4)
  | .reserved => false

/-- EPW = S div W (40_control.md R122). -/
def configEpw (s : State) : Nat := s.wordBits / s.elementBits

/-- NW = ceil_div(N, EPW), a mathematical integer (40_control.md R122). -/
def configNumWords (s : State) : Nat := ceilDiv s.numElements (configEpw s)

/-- The checks of CONFIGURE (40_control.md R122). -/
def configureCheck (s : State) : Option ErrorCode :=
  if s.configured then some .alreadyConfigured
  else if s.mode = .reserved then some .cfgBadMode
  else if widthLegal s = false then some .cfgBadWidth
  else if s.mode ≠ .raw ∧ s.numElements = 0 then some .cfgBadSize
  else if s.build.maxWords.toNat < configNumWords s then some .cfgBadSize
  else if s.mode ≠ .raw ∧ s.numHashes = 0 then some .cfgBadHashes
  else none

/-- The check of RELEASE (40_control.md R124). -/
def configuredCheck (s : State) : Option ErrorCode := if s.configured then none else some .notConfigured

/-- The checks of VEC_GET, VEC_SET, VEC_INC and VEC_DEC (42_counter_vector.md R175): the index against N. -/
def indexCheck (s : State) : Option ErrorCode :=
  if s.configured = false then some .notConfigured
  else if s.numElements ≤ s.argIndex.toNat then some .indexError
  else none

/-- The checks of VEC_READ_WORD (42_counter_vector.md R180): the index against NUM_WORDS. -/
def wordIndexCheck (s : State) : Option ErrorCode :=
  if s.configured = false then some .notConfigured
  else if s.numWords.toNat ≤ s.argIndex.toNat then some .indexError
  else none

/-- The check of HS_NEXT (41_hash_stream.md R153). -/
def streamCheck (s : State) : Option ErrorCode := if s.hsValid then none else some .streamNotLoaded

/-- The checks of FLT_ADD and FLT_CONTAINS (43_filter.md R213). -/
def filterCheck (s : State) : Option ErrorCode :=
  if s.configured = false then some .notConfigured
  else if s.mode = .raw then some .modeError
  else none

/-- The checks of FLT_REMOVE (43_filter.md R213): no removal in BITSET. -/
def removeCheck (s : State) : Option ErrorCode :=
  if s.configured = false then some .notConfigured
  else if s.mode = .raw then some .modeError
  else if s.mode = .bitset then some .modeError
  else none

end Sys2Proof.Machine
end

