-- ==== Sys2Proof/Machine/Control.lean ====
section
/-! DEFINITION. The control commands (40_control.md) and the illegal command word (30_encoding.md R94). -/

namespace Sys2Proof.Machine

/-- An illegal word `c` executes as raise Error(ILLEGAL_COMMAND), recording ERR_OP = c[7:0] (30_encoding.md R94). -/
def execIllegal (c : Word) (s : State) : Host.Outcome State Fault Refusal :=
  .next (raiseError (opcField c) .illegalCommand s)

/-- NOP (40_control.md R121). -/
def execNop (s : State) : Host.Outcome State Fault Refusal := .next (complete s)

/-- The construction of CONFIGURE (40_control.md R122): words 0 to NW − 1 become 0, which is the empty list once they are in
use (log 2); GEOM and CONFIGURED are set. -/
def construct (s : State) : State :=
  { s with
    words := []
    epw := BitVec.ofNat 8 (configEpw s)
    numWords := BitVec.ofNat 32 (configNumWords s)
    configured := true }

/-- CONFIGURE (40_control.md R122). -/
def execConfigure (s : State) : Host.Outcome State Fault Refusal :=
  afterChecks .configure (configureCheck s) s (.next (complete (construct s)))

/-- The release of the storage (40_control.md R124): its content is unspecified from here on (log 3). -/
def dropStorage (s : State) : State :=
  { s with configured := false, epw := 0#8, numWords := 0#32, words := [], storageEpoch := s.storageEpoch + 1 }

/-- RELEASE (40_control.md R124). -/
def execRelease (s : State) : Host.Outcome State Fault Refusal :=
  afterChecks .release (configuredCheck s) s (.next (complete (dropStorage s)))

/-- CLEAR_ERR (40_control.md R125). -/
def execClearErr (s : State) : Host.Outcome State Fault Refusal :=
  .next (complete { s with errSticky := false, errOp := 0#8 })

end Sys2Proof.Machine
end

