-- ==== Sys2Proof/Machine/CounterVector.lean ====
section
/-! DEFINITION. The packed counter vector commands (42_counter_vector.md). -/

namespace Sys2Proof.Machine

/-- The counter index operand (10_state.md R31), all 64 bits of it. -/
def indexOperand (s : State) : Nat := s.argIndex.toNat

/-- The common end of VEC_SET, VEC_INC and VEC_DEC (42_counter_vector.md R177 to R179): counter i and RESULT receive `v`. -/
def storeCounter (s : State) (v : Word) : Host.Outcome State Fault Refusal :=
  completeOnWords s [wordIndex s (indexOperand s)] (setResult v (fieldPut s (indexOperand s) v))

/-- VEC_GET (42_counter_vector.md R176). -/
def execVecGet (s : State) : Host.Outcome State Fault Refusal :=
  afterChecks .vecGet (indexCheck s) s
    (completeOnWords s [wordIndex s (indexOperand s)] (setResult (fieldGet s (indexOperand s)) s))

/-- VEC_SET (42_counter_vector.md R177): clamped, not truncated. -/
def execVecSet (s : State) : Host.Outcome State Fault Refusal :=
  afterChecks .vecSet (indexCheck s) s (storeCounter s (clampToMax s s.argValue))

/-- VEC_INC (42_counter_vector.md R178). -/
def execVecInc (s : State) : Host.Outcome State Fault Refusal :=
  afterChecks .vecInc (indexCheck s) s
    (storeCounter s (saturatingInc s.fieldMask (fieldGet s (indexOperand s))))

/-- VEC_DEC (42_counter_vector.md R179). -/
def execVecDec (s : State) : Host.Outcome State Fault Refusal :=
  afterChecks .vecDec (indexCheck s) s
    (storeCounter s (saturatingDec (fieldGet s (indexOperand s))))

/-- VEC_READ_WORD (42_counter_vector.md R180): ARG_INDEX is a word index. -/
def execVecReadWord (s : State) : Host.Outcome State Fault Refusal :=
  afterChecks .vecReadWord (wordIndexCheck s) s
    (completeOnWords s [indexOperand s] (setResult (memRead s (indexOperand s)) s))

end Sys2Proof.Machine
end

