-- ==== Sys2Proof/Machine/Filter.lean ====
section
/-! DEFINITION. The membership tester commands (43_filter.md). Each acts once on every one of its k slot indices, in order,
a later one seeing what an earlier one wrote (R217; 70_reset_and_hazards.md R285). -/

namespace Sys2Proof.Machine

/-- One step of FLT_ADD (43_filter.md R214): set the bit, or increment the 4-bit counter saturating at 15. -/
def addSlot (s : State) (i : Nat) : State :=
  if s.mode = .bitset then fieldPut s i 1#64 else fieldPut s i (saturatingInc 15#64 (fieldGet s i))

/-- One step of FLT_REMOVE (43_filter.md R215). -/
def removeSlot (s : State) (i : Nat) : State := fieldPut s i (saturatingDec (fieldGet s i))

/-- One step of FLT_CONTAINS (43_filter.md R216): `r` is the conjunction so far. -/
def testSlot (s : State) (r : Word) (i : Nat) : Word := if fieldGet s i = 0#64 then 0#64 else r

/-- The storage words a filter command reaches. -/
def filterWords (s : State) : List Nat := (filterSlots s).map (wordIndex s)

/-- FLT_ADD (43_filter.md R214). -/
def execFltAdd (s : State) : Host.Outcome State Fault Refusal :=
  afterChecks .fltAdd (filterCheck s) s
    (completeOnWords s (filterWords s) (filterStream s ((filterSlots s).foldl addSlot s)))

/-- FLT_REMOVE (43_filter.md R215). -/
def execFltRemove (s : State) : Host.Outcome State Fault Refusal :=
  afterChecks .fltRemove (removeCheck s) s
    (completeOnWords s (filterWords s) (filterStream s ((filterSlots s).foldl removeSlot s)))

/-- FLT_CONTAINS (43_filter.md R216). -/
def execFltContains (s : State) : Host.Outcome State Fault Refusal :=
  afterChecks .fltContains (filterCheck s) s
    (completeOnWords s (filterWords s)
      (filterStream s (setResult ((filterSlots s).foldl (testSlot s) 1#64) s)))

end Sys2Proof.Machine
end

