-- ==== Sys2Proof/Machine/HashStream.lean ====
section
/-! DEFINITION. The hash stream commands (41_hash_stream.md). -/

namespace Sys2Proof.Machine

/-- HS_LOAD (41_hash_stream.md R152). -/
def execHsLoad (s : State) : Host.Outcome State Fault Refusal :=
  .next (complete (setStream (streamBase s) (streamIncr s) s))

/-- HS_NEXT (41_hash_stream.md R153): the sum wraps at 2^64. -/
def execHsNext (s : State) : Host.Outcome State Fault Refusal :=
  afterChecks .hsNext (streamCheck s) s
    (.next (complete { s with result := s.hsBase, hsBase := s.hsBase + s.hsIncr }))

end Sys2Proof.Machine
end

