-- ==== Sys2Proof/Machine/Dispatch.lean ====
section
/-! DEFINITION. exec: one arm for each command, in the order of spec/opcode_table.json. -/

namespace Sys2Proof.Machine

def exec (i : Instr) (s : State) : Host.Outcome State Fault Refusal :=
  match i with
  | .nop => Sys2Proof.Machine.execNop s
  | .configure => Sys2Proof.Machine.execConfigure s
  | .release => Sys2Proof.Machine.execRelease s
  | .clearErr => Sys2Proof.Machine.execClearErr s
  | .vecGet => Sys2Proof.Machine.execVecGet s
  | .vecSet => Sys2Proof.Machine.execVecSet s
  | .vecInc => Sys2Proof.Machine.execVecInc s
  | .vecDec => Sys2Proof.Machine.execVecDec s
  | .vecReadWord => Sys2Proof.Machine.execVecReadWord s
  | .hsLoad => Sys2Proof.Machine.execHsLoad s
  | .hsNext => Sys2Proof.Machine.execHsNext s
  | .fltAdd => Sys2Proof.Machine.execFltAdd s
  | .fltRemove => Sys2Proof.Machine.execFltRemove s
  | .fltContains => Sys2Proof.Machine.execFltContains s

end Sys2Proof.Machine
end

