-- ==== Sys2Proof/Machine/Registers.lean ====
section
/-! DEFINITION. The register window (10_state.md R21 to R39): where each register lies, and the one read and the one write
of a register. -/

namespace Sys2Proof.Machine

/-- The access types of 10_state.md R21. -/
inductive AccessType where
  | readOnly
  | readWrite
  /-- RW-L: read-write while not configured, read-only while configured (R28). -/
  | lockedReadWrite
  | writeOnly
deriving DecidableEq, Repr

/-- The registers in the order of their offsets (10_state.md R21). -/
def registerMap : List Reg :=
  [.id, .params, .cfgMode, .cfgNumElements, .cfgElementBits, .cfgNumHashes, .geom, .status, .argIndex, .argValue,
   .digest0, .digest1, .hsBase, .hsIncr, .result, .cmd]

/-- The offset of a register from ENGINE_BASE (10_state.md R21). -/
def regOffset : Reg → Nat
  | .id => 0x00
  | .params => 0x08
  | .cfgMode => 0x10
  | .cfgNumElements => 0x18
  | .cfgElementBits => 0x20
  | .cfgNumHashes => 0x28
  | .geom => 0x30
  | .status => 0x38
  | .argIndex => 0x40
  | .argValue => 0x48
  | .digest0 => 0x50
  | .digest1 => 0x58
  | .hsBase => 0x60
  | .hsIncr => 0x68
  | .result => 0x70
  | .cmd => 0x78

/-- The access column of 10_state.md R21. -/
def accessType : Reg → AccessType
  | .id => .readOnly
  | .params => .readOnly
  | .cfgMode => .lockedReadWrite
  | .cfgNumElements => .lockedReadWrite
  | .cfgElementBits => .lockedReadWrite
  | .cfgNumHashes => .lockedReadWrite
  | .geom => .readOnly
  | .status => .readOnly
  | .argIndex => .readWrite
  | .argValue => .readWrite
  | .digest0 => .readWrite
  | .digest1 => .readWrite
  | .hsBase => .readOnly
  | .hsIncr => .readOnly
  | .result => .readOnly
  | .cmd => .writeOnly

/-- The register an access of `width` bits at `offset` reaches, if it is admitted: 64 bits, at a multiple of 8 from 0x00 to
0x78 (20_memory.md R64). -/
def admitted (width offset : Nat) : Option Reg :=
  if width = 64 ∧ offset % 8 = 0 then registerMap[offset / 8]? else none

/-- ID (10_state.md R22). -/
def idWord : Word := place 0x5043_5645#32 32 ||| place 0x0001#16 0

/-- PARAMS (10_state.md R23). -/
def paramsWord (b : Build) : Word := place b.maxWords 32 ||| place (BitVec.ofNat 8 b.width.bits) 0

/-- GEOM (10_state.md R29). -/
def geomWord (s : State) : Word := place s.numWords 32 ||| place s.epw 0

/-- What a host read of a register returns (10_state.md R22 to R38); reading CMD gives 0. -/
def regRead (s : State) : Reg → Word
  | .id => idWord
  | .params => paramsWord s.build
  | .cfgMode => place s.cfgMode 0
  | .cfgNumElements => s.cfgNumElements
  | .cfgElementBits => place s.cfgElementBits 0
  | .cfgNumHashes => place s.cfgNumHashes 0
  | .geom => geomWord s
  | .status => statusWord s
  | .argIndex => s.argIndex
  | .argValue => s.argValue
  | .digest0 => s.digest0
  | .digest1 => s.digest1
  | .hsBase => s.hsBase
  | .hsIncr => s.hsIncr
  | .result => s.result
  | .cmd => 0#64

/-- A value stored into the writable bits of a register (10_state.md R24 to R27, R31 to R34); a register that is not
writable keeps its value. CMD stores nothing (R38). -/
def regStore (s : State) (r : Reg) (v : Word) : State :=
  match r with
  | .cfgMode => { s with cfgMode := v.extractLsb 1 0 }
  | .cfgNumElements => { s with cfgNumElements := v }
  | .cfgElementBits => { s with cfgElementBits := v.extractLsb 7 0 }
  | .cfgNumHashes => { s with cfgNumHashes := v.extractLsb 31 0 }
  | .argIndex => { s with argIndex := v }
  | .argValue => { s with argValue := v }
  | .digest0 => { s with digest0 := v }
  | .digest1 => { s with digest1 := v }
  | .id | .params | .geom | .status | .hsBase | .hsIncr | .result | .cmd => s

/-- A host write of a register other than CMD: stored, or ignored if the register is read-only (10_state.md R39) or locked
(R28). -/
def regWrite (s : State) (r : Reg) (v : Word) : State :=
  match accessType r with
  | .readWrite => regStore s r v
  | .lockedReadWrite => if s.configured then s else regStore s r v
  | .readOnly | .writeOnly => s

end Sys2Proof.Machine
end

