-- ==== Sys2Proof/Machine/Bus.lean ====
section
/-! DEFINITION. What reaches the engine from outside: host accesses, commands and reset (20_memory.md R64 to R71;
70_reset_and_hazards.md R270, R272), performed one at a time in arrival order. -/

namespace Sys2Proof.Machine

/-- The command word `c` written to CMD (10_state.md R38): the legality check, then the command (40_control.md R120). -/
def performCommand (c : Word) (s : State) : Host.Outcome State Fault Refusal :=
  match decode c with
  | .ok i => exec i s
  | .error _ => execIllegal c s

/-- A read of `r`: no side effect (20_memory.md R66); its value is an observation of the run (70_reset_and_hazards.md R288). -/
def performRead (r : Reg) (s : State) : State := { s with observed := s.observed ++ [regRead s r] }

/-- One host access (20_memory.md R64 to R66). -/
def performAccess (a : Access) (s : State) : Host.Outcome State Fault Refusal :=
  match a with
  | .read width offset =>
    match admitted width offset with
    | some r => .next (performRead r s)
    | none => .refused .busError
  | .write width offset v =>
    match admitted width offset with
    | some .cmd => performCommand v s
    | some r => .next (regWrite s r v)
    | none => .refused .busError

/-- Reset (70_reset_and_hazards.md R270): every register at its reset value and the storage content unspecified. A command
in progress is abandoned, so nothing of it remains; an access held at the bus is left to the platform (R272). -/
def performReset (held : List Access) (s : State) : State :=
  { State.resetOf s.build with
    storageEpoch := s.storageEpoch + 1
    pending := held.map .heldAtReset ++ s.pending
    observed := s.observed }

/-- One host event. -/
def performEvent (e : HostEvent) (s : State) : Host.Outcome State Fault Refusal :=
  match e with
  | .access a => performAccess a s
  | .reset _ held => .next (performReset held s)
  | .heldAtReset _ => .refused .heldAtReset

/-- The next pending event is taken and performed whole (20_memory.md R70). With none, the engine is idle, and idleness
changes no state (60_exceptions.md R255). -/
def performNext (s : State) : Host.Outcome State Fault Refusal :=
  match s.pending with
  | [] => .next s
  | e :: rest => performEvent e { s with pending := rest }

/-- A host's write of the command word `c` to CMD (30_encoding.md R97: W 0x78 c). -/
def commandEvent (c : Word) : HostEvent := .access (.write 64 (regOffset .cmd) c)

/-- `s` with the host event `e` the next to be performed. -/
def withNextEvent (s : State) (e : HostEvent) : State := { s with pending := e :: s.pending }

end Sys2Proof.Machine
end

