-- ==== Sys2Proof/Machine/Step.lean ====
section
/-! DEFINITION. One step of the machine, and how the host places a command as the next thing the machine performs. -/

namespace Sys2Proof.Machine

/-- One step: the next host event, performed whole (20_memory.md R70). -/
def step (s : State) : Host.Outcome State Fault Refusal := performNext s

/-- `s` with the command word `w` the next host event. The engine fetches nothing (10_state.md R40): a command arrives as a
host's write to CMD (log 5). -/
def State.withFetchWord (s : State) (nbits w : Nat) : State :=
  withNextEvent s (commandEvent (BitVec.ofNat 64 (w % 2 ^ nbits)))

end Sys2Proof.Machine
end

