-- ==== Sys2Proof/Machine/Assembler.lean ====
section
/-! DEFINITION. The host's side of the interface: digest packing, assembler statements and pseudo-instructions, and the host's
duties that compute accesses (10_state.md R33, R34; 30_encoding.md R97, R98; 70_reset_and_hazards.md R273, R278, R279).
No meaning of a command uses this file. -/

namespace Sys2Proof.Machine

/-- BE64(b0, …, b7): eight bytes read big-endian, b0 most significant (00_scope.md R11). -/
def be64 (b0 b1 b2 b3 b4 b5 b6 b7 : Byte) : Word :=
  place b0 56 ||| place b1 48 ||| place b2 40 ||| place b3 32 ||| place b4 24 ||| place b5 16 ||| place b6 8 ||| place b7 0

/-- DIGEST_0 = BE64(d[0..7]) (10_state.md R33). -/
def packDigest0 (d : Vector Byte 16) : Word := be64 d[0] d[1] d[2] d[3] d[4] d[5] d[6] d[7]

/-- DIGEST_1 = BE64(d[8..15]) (10_state.md R34). -/
def packDigest1 (d : Vector Byte 16) : Word := be64 d[8] d[9] d[10] d[11] d[12] d[13] d[14] d[15]

/-- A statement of the assembler (30_encoding.md R97). -/
inductive AsmStmt where
  /-- `write REG, value`. -/
  | write (r : Reg) (v : Word)
  /-- `read REG`. -/
  | read (r : Reg)
  /-- A command mnemonic, the same as `write CMD, OPC`. -/
  | command (i : Instr)
deriving DecidableEq, Repr

/-- The lowercase mnemonic of a command (30_encoding.md R97). -/
def asmMnemonic : Instr → String
  | .nop => "nop"
  | .configure => "configure"
  | .release => "release"
  | .clearErr => "clear_err"
  | .vecGet => "vec_get"
  | .vecSet => "vec_set"
  | .vecInc => "vec_inc"
  | .vecDec => "vec_dec"
  | .vecReadWord => "vec_read_word"
  | .hsLoad => "hs_load"
  | .hsNext => "hs_next"
  | .fltAdd => "flt_add"
  | .fltRemove => "flt_remove"
  | .fltContains => "flt_contains"

/-- The name of a register (10_state.md R21), as an assembler statement writes it. -/
def regName : Reg → String
  | .id => "ID"
  | .params => "PARAMS"
  | .cfgMode => "CFG_MODE"
  | .cfgNumElements => "CFG_NUM_ELEMENTS"
  | .cfgElementBits => "CFG_ELEMENT_BITS"
  | .cfgNumHashes => "CFG_NUM_HASHES"
  | .geom => "GEOM"
  | .status => "STATUS"
  | .argIndex => "ARG_INDEX"
  | .argValue => "ARG_VALUE"
  | .digest0 => "DIGEST_0"
  | .digest1 => "DIGEST_1"
  | .hsBase => "HS_BASE"
  | .hsIncr => "HS_INCR"
  | .result => "RESULT"
  | .cmd => "CMD"

/-- Each statement is one bus transaction: W offset data, or R offset (30_encoding.md R97). -/
def asmEvent : AsmStmt → HostEvent
  | .write r v => .access (.write 64 (regOffset r) v)
  | .read r => .access (.read 64 (regOffset r))
  | .command i => commandEvent (encode i)

/-- The mode operand of `cfg` written RAW, BITSET or COUNTING (30_encoding.md R97); the reserved value 3 is a number. -/
def modeOperand : Mode → Word
  | .raw => 0#64
  | .bitset => 1#64
  | .counting => 2#64
  | .reserved => 3#64

/-- The pseudo-instructions of 30_encoding.md R98. -/
inductive Pseudo where
  | cfg (m n w k : Word)
  | get (i : Word)
  | set (i v : Word)
  | inc (i : Word)
  | dec (i : Word)
  | rdword (j : Word)
  | key (d0 d1 : Word)
  | load (d0 d1 : Word)
  | next
  | add (d0 d1 : Word)
  | remove (d0 d1 : Word)
  | contains (d0 d1 : Word)
  | status
deriving DecidableEq, Repr

/-- The writes of `key D0, D1` (30_encoding.md R98). -/
def keyWrites (d0 d1 : Word) : List AsmStmt := [.write .digest0 d0, .write .digest1 d1]

/-- The expansion of a pseudo-instruction, in order (30_encoding.md R98). -/
def expand : Pseudo → List AsmStmt
  | .cfg m n w k =>
    [.write .cfgMode m, .write .cfgNumElements n, .write .cfgElementBits w, .write .cfgNumHashes k, .command .configure]
  | .get i => [.write .argIndex i, .command .vecGet, .read .result]
  | .set i v => [.write .argIndex i, .write .argValue v, .command .vecSet]
  | .inc i => [.write .argIndex i, .command .vecInc]
  | .dec i => [.write .argIndex i, .command .vecDec]
  | .rdword j => [.write .argIndex j, .command .vecReadWord, .read .result]
  | .key d0 d1 => keyWrites d0 d1
  | .load d0 d1 => keyWrites d0 d1 ++ [.command .hsLoad]
  | .next => [.command .hsNext, .read .result]
  | .add d0 d1 => keyWrites d0 d1 ++ [.command .fltAdd]
  | .remove d0 d1 => keyWrites d0 d1 ++ [.command .fltRemove]
  | .contains d0 d1 => keyWrites d0 d1 ++ [.command .fltContains, .read .result]
  | .status => [.read .status]

/-- `s` with a host's statements the last to be performed. -/
def enqueue (s : State) (p : List AsmStmt) : State := { s with pending := s.pending ++ p.map asmEvent }

/-- The registers a host writes for a key (70_reset_and_hazards.md R279): the digest with seed 0, packed. -/
def keyStatements (key : List Byte) : List AsmStmt :=
  keyWrites (packDigest0 (Config.digest128 key 0)) (packDigest1 (Config.digest128 key 0))

/-- The configuration a host writes for a filter (70_reset_and_hazards.md R278); it must reject values its registers
cannot hold. -/
def filterConfiguration (counting : Bool) (numBits numHashes : Nat) : Option (List AsmStmt) :=
  if 2 ^ 64 ≤ numBits ∨ 2 ^ 32 ≤ numHashes then none
  else some
    [.write .cfgMode (modeOperand (if counting then .counting else .bitset)),
     .write .cfgNumElements (BitVec.ofNat 64 numBits),
     .write .cfgElementBits (if counting then 4#64 else 1#64),
     .write .cfgNumHashes (BitVec.ofNat 64 numHashes)]

/-- The configuration a host writes for a bare vector (70_reset_and_hazards.md R278). -/
def vectorConfiguration (numElements elementBits : Word) : List AsmStmt :=
  [.write .cfgMode (modeOperand .raw), .write .cfgNumElements numElements, .write .cfgElementBits elementBits]

/-- The boot sequence around a configuration (70_reset_and_hazards.md R273): look at ID and PARAMS, configure, and read
STATUS. -/
def bootSequence (configuration : List AsmStmt) : List AsmStmt :=
  [.read .id, .read .params] ++ configuration ++ [.command .configure, .read .status]

end Sys2Proof.Machine
end

