-- ==== Sys2Proof/Machine/Sizing.lean ====
section
/-! DEFINITION. The host's sizing formulas (70_reset_and_hazards.md R274 to R277; 92_eei_decisions.md D36): binary64 arithmetic,
in the expression's order. A binary64 value is a rational here; the logarithm is HOST_LN (log 11). No meaning of a command
uses this file. -/

namespace Sys2Proof.Machine

/-- A binary64 input: a finite value, an infinity or a NaN. -/
inductive Binary64 where
  | finite (x : Rat)
  | infinite
  | nan
deriving DecidableEq, Repr

/-- 2 to an integer power. -/
def powTwo (e : Int) : Rat := if 0 ≤ e then ((2 ^ e.toNat : Nat) : Rat) else 1 / ((2 ^ (-e).toNat : Nat) : Rat)

/-- floor(log2 x) for x > 0. -/
def floorLogTwo (x : Rat) : Int :=
  let e : Int := (Nat.log2 x.num.toNat : Int) - (Nat.log2 x.den : Int)
  if powTwo e ≤ x then e else e - 1

/-- The nearest integer to x ≥ 0, a tie going to the even one. -/
def roundHalfEven (x : Rat) : Nat :=
  let q := x.num.toNat / x.den
  let r := x.num.toNat % x.den
  if 2 * r < x.den then q
  else if x.den < 2 * r then q + 1
  else if q % 2 = 0 then q else q + 1

/-- x ≥ 0 rounded to binary64; none where it overflows. -/
def roundBinary64 (x : Rat) : Option Rat :=
  if x ≤ 0 then some 0
  else
    let u : Int := max (floorLogTwo x - 52) (-1074)
    let y : Rat := (roundHalfEven (x / powTwo u) : Rat) * powTwo u
    if y < powTwo 1024 then some y else none

/-- The nearest integer to x ≥ 0, a tie going away from zero (70_reset_and_hazards.md R277). -/
def roundHalfAway (x : Rat) : Nat := (2 * x.num.toNat + x.den) / (2 * x.den)

/-- num_bits (70_reset_and_hazards.md R275), `ln` being HOST_LN: q = 1.0/p; a = ln(q); b = n·a; c = ln 2 · ln 2;
round(b/c). None where an intermediate overflows (log 11). -/
def sizeNumBits (ln : Rat → Rat) (n : Nat) (p : Rat) : Option Nat := do
  let q ← roundBinary64 (1 / p)
  let m ← roundBinary64 n
  let b ← roundBinary64 (m * ln q)
  let c ← roundBinary64 (ln 2 * ln 2)
  let r ← roundBinary64 (b / c)
  return roundHalfAway r

/-- num_hashes (70_reset_and_hazards.md R276), from the rounded num_bits. -/
def sizeNumHashes (ln : Rat → Rat) (n numBits : Nat) : Option Nat := do
  let nb ← roundBinary64 numBits
  let t ← roundBinary64 (nb * ln 2)
  let m ← roundBinary64 n
  let r ← roundBinary64 (t / m)
  return roundHalfAway r

/-- The host's inputs are rejected unless num_items > 0 and the rate lies strictly in (0, 1) (70_reset_and_hazards.md R274);
a NaN does not. -/
def sizingInputsAccepted (n : Nat) : Binary64 → Bool
  | .finite p => decide (0 < n ∧ 0 < p ∧ p < 1)
  | .infinite => false
  | .nan => false

/-- (num_bits, num_hashes) of a filter (70_reset_and_hazards.md R274 to R277). -/
def sizeFilter (ln : Rat → Rat) (n : Nat) (p : Binary64) : Option (Nat × Nat) :=
  match p with
  | .finite x => do
    if sizingInputsAccepted n (.finite x) then
      let nb ← sizeNumBits ln n x
      let nh ← sizeNumHashes ln n nb
      return (nb, nh)
    else none
  | .infinite => none
  | .nan => none

/-- The statements with which a host builds a filter for `n` items at rate `p` (70_reset_and_hazards.md R273 to R278). -/
def filterBoot (counting : Bool) (n : Nat) (p : Binary64) : Option (List AsmStmt) := do
  let size ← sizeFilter Config.hostLn n p
  let configuration ← filterConfiguration counting size.1 size.2
  return bootSequence configuration

end Sys2Proof.Machine
end

