-- ==== Sys2Proof/Safety.lean ====
section
/-! DEFINITION. What holds in every state a run reaches (10_state.md R46), in the terms the statements use. -/

namespace Sys2Proof.Machine

/-- Bit `b` of storage word `j` belongs to the field of a counter below N (42_counter_vector.md R171): it lies in slot
(S − 1 − b) div W, and is no padding bit and no bit of an unused slot. -/
def counterBit (s : State) (j b : Nat) : Bool :=
  decide (b < s.wordBits) && decide ((s.wordBits - 1 - b) / s.elementBits < s.epw.toNat) &&
    decide (j * s.epw.toNat + (s.wordBits - 1 - b) / s.elementBits < s.numElements)

/-- The active configuration is a legal one and GEOM is its geometry (40_control.md R123; 10_state.md R46 d). -/
def configurationOk (s : State) : Bool :=
  widthLegal s && (decide (s.epw.toNat = configEpw s) && (decide (s.numWords.toNat = configNumWords s) &&
    (decide (configNumWords s ≤ s.build.maxWords.toNat) &&
      (decide (s.mode = .raw) || (decide (s.numElements ≠ 0) && decide (s.numHashes ≠ 0))))))

/-- GEOM reads 0 while not configured (10_state.md R29); the geometry is right while configured (R46 d). -/
def geometryOk (s : State) : Bool :=
  if s.configured then configurationOk s else decide (s.epw = 0#8) && decide (s.numWords = 0#32)

/-- The storage is in canonical form, lists only words in use, and holds 1 bits in counters only (10_state.md R46 b, c). -/
def storageOk (s : State) : Bool :=
  decide (Memory.wf s.words) && s.words.all fun c =>
    decide (c.1 < s.numWords.toNat) && (List.range 64).all fun b => !c.2.getLsbD b || counterBit s c.1 b

/-- The invariant of every reachable state: a legal build (00_scope.md R7), GEOM and storage as 10_state.md R46 says, and
ERR at most 10 (60_exceptions.md R243; 93 I14). -/
def State.inv (s : State) : Bool :=
  s.build.legal && geometryOk s && storageOk s && decide (s.err.toNat ≤ 10)

/-- Several commands performed one after another, stopping where one stops. -/
def runCommands : List Instr → State → Host.Outcome State Fault Refusal
  | [], s => .next s
  | i :: rest, s =>
    match exec i s with
    | .next t => runCommands rest t
    | .fault f => .fault f
    | .refused r => .refused r

/-- Command `i` fails in `s` with STATUS.ERR = `code`, changing nothing but the STATUS error fields (60_exceptions.md R241). -/
def failsWith (i : Instr) (code : BitVec 4) (s : State) : Prop :=
  exec i s = .next { s with err := code, errSticky := true, errOp := opcode i }

/-- The event is a command that can lower a counter, or reset (43_filter.md R220). -/
def lowersCounters (e : HostEvent) : Bool :=
  match e with
  | .reset _ _ => true
  | .heldAtReset _ => false
  | .access (.read _ _) => false
  | .access (.write width offset c) =>
    decide (admitted width offset = some .cmd) &&
      (decide (decode c = .ok .fltRemove) || decide (decode c = .ok .vecSet) || decide (decode c = .ok .vecDec) ||
        decide (decode c = .ok .release))

/-- What each command may write when it succeeds, taken from `t` (30_encoding.md R92, "state written"). -/
def writtenBy (i : Instr) (s t : State) : State :=
  match i with
  | .nop => { s with err := t.err }
  | .configure =>
    { s with configured := t.configured, epw := t.epw, numWords := t.numWords, words := t.words, err := t.err }
  | .release =>
    { s with configured := t.configured, epw := t.epw, numWords := t.numWords, words := t.words,
             storageEpoch := t.storageEpoch, err := t.err }
  | .clearErr => { s with err := t.err, errSticky := t.errSticky, errOp := t.errOp }
  | .vecGet | .vecReadWord => { s with result := t.result, err := t.err }
  | .vecSet | .vecInc | .vecDec => { s with words := t.words, result := t.result, err := t.err }
  | .hsLoad => { s with hsBase := t.hsBase, hsIncr := t.hsIncr, hsValid := t.hsValid, err := t.err }
  | .hsNext => { s with result := t.result, hsBase := t.hsBase, err := t.err }
  | .fltAdd | .fltRemove =>
    { s with words := t.words, hsBase := t.hsBase, hsIncr := t.hsIncr, hsValid := t.hsValid, err := t.err }
  | .fltContains =>
    { s with result := t.result, hsBase := t.hsBase, hsIncr := t.hsIncr, hsValid := t.hsValid, err := t.err }

/-- The indices of the storage words a command may store to (30_encoding.md R92). RELEASE stores to none: it makes all
content unspecified (40_control.md R124). -/
def storesTo (i : Instr) (s : State) : List Nat :=
  match i with
  | .configure => List.range (configNumWords s)
  | .vecSet | .vecInc | .vecDec => [wordIndex s (indexOperand s)]
  | .fltAdd | .fltRemove => filterWords s
  | .nop | .release | .clearErr | .vecGet | .vecReadWord | .hsLoad | .hsNext | .fltContains => []

/-- The error codes a command can raise (60_exceptions.md R243, "raised by"). -/
def raisableCodes : Instr → List (BitVec 4)
  | .nop | .clearErr | .hsLoad => []
  | .configure => [3#4, 4#4, 5#4, 6#4, 7#4]
  | .release => [2#4]
  | .vecGet | .vecSet | .vecInc | .vecDec | .vecReadWord => [2#4, 8#4]
  | .hsNext => [10#4]
  | .fltAdd | .fltRemove | .fltContains => [2#4, 9#4]

/-- W is legal for the mode, in the words of 40_control.md R122. -/
def legalWidth (s : State) : Prop :=
  (s.cfgMode = 0#2 → 1 ≤ s.elementBits ∧ s.elementBits ≤ s.wordBits) ∧
  (s.cfgMode = 1#2 → s.elementBits = 1) ∧ (s.cfgMode = 2#2 → s.elementBits = 4)

/-- inc of 41_hash_stream.md R151. -/
def hashIncrement (s : State) : Word := s.digest0.extractLsb 31 0 ++ s.digest1.extractLsb 63 32

/-- h_t = (base0 + t·inc) mod 2^64 (41_hash_stream.md R154). -/
def hashValue (s : State) (t : Nat) : Nat := (s.digest0.toNat + t * (hashIncrement s).toNat) % 2 ^ 64

/-- idx_0, …, idx_(k−1), idx_t = h_t mod N (43_filter.md R211). -/
def slotIndices (s : State) : List Nat := (List.range s.numHashes).map fun t => hashValue s t % s.numElements

end Sys2Proof.Machine
end

