-- ==== Sys2Proof/Certificates/Slice0/Obligations.lean ====
section
/-! DEFINITION. The statements for the provers, from the spec's numbered rules. -/

open Sys2Proof Sys2Proof.Machine

/-- 10_state.md R47: every register after reset, for every build; the STATUS fields one by one; ID and PARAMS in
every state. -/
def Obligations.ResetRegisterValues : Prop :=
  ∀ b : Build, ∀ s : State, s = State.resetOf b →
    regRead s .cfgMode = 0#64 ∧ regRead s .cfgNumElements = 0#64 ∧ regRead s .cfgElementBits = 4#64 ∧
    regRead s .cfgNumHashes = 0#64 ∧ regRead s .geom = 0#64 ∧ regRead s .status = 0#64 ∧
    s.configured = false ∧ s.hsValid = false ∧ s.errSticky = false ∧ s.err = 0#4 ∧ s.errOp = 0#8 ∧
    regRead s .argIndex = 0#64 ∧ regRead s .argValue = 0#64 ∧ regRead s .digest0 = 0#64 ∧ regRead s .digest1 = 0#64 ∧
    regRead s .hsBase = 0#64 ∧ regRead s .hsIncr = 0#64 ∧ regRead s .result = 0#64 ∧ regRead s .cmd = 0#64 ∧
    s.build = b ∧ ∀ u : State, regRead u .id = 0x5043_5645_0000_0001#64 ∧
      regRead u .params = u.build.maxWords ++ 0#24 ++ BitVec.ofNat 8 u.build.width.bits

/-- 10_state.md R46, R48: the reset state meets the invariant, for every legal build. -/
def Obligations.ResetMeetsInvariant : Prop :=
  (∀ b : Build, b.legal = true → (State.resetOf b).inv = true) ∧ State.reset.inv = true

/-- 30_encoding.md R91, R93: words written out from the opcode map, one or more of each family, decode as they should. -/
def Obligations.ListedWordsDecode : Prop :=
  decode 0x0000_0000_0000_0000#64 = .ok .nop ∧ decode 0x0000_0000_0000_0001#64 = .ok .configure ∧
  decode 0x0000_0000_0000_0021#64 = .ok .hsNext ∧ decode 0x0000_0000_0000_0014#64 = .ok .vecReadWord ∧
  decode 0x0000_0000_0000_0032#64 = .ok .fltContains ∧
  decode 0x0000_0000_0000_0004#64 = .error .unassignedOpcode ∧
  decode 0x0000_0000_0000_0130#64 = .error .reservedBitsSet

/-- 30_encoding.md R93: a word selects a command exactly when it is the zero-extended opcode of its row. So decoding the
encoding of a command gives it back, and nothing else decodes to it. -/
def Obligations.DecodeSelectsExactlyTheTable : Prop :=
  (∀ c : Word, (decode c = .ok .nop ↔ c = 0x00#64) ∧ (decode c = .ok .configure ↔ c = 0x01#64) ∧
    (decode c = .ok .release ↔ c = 0x02#64) ∧ (decode c = .ok .clearErr ↔ c = 0x03#64) ∧
    (decode c = .ok .hsLoad ↔ c = 0x20#64) ∧ (decode c = .ok .hsNext ↔ c = 0x21#64) ∧
    (decode c = .ok .vecGet ↔ c = 0x10#64) ∧ (decode c = .ok .vecSet ↔ c = 0x11#64) ∧
    (decode c = .ok .vecInc ↔ c = 0x12#64) ∧ (decode c = .ok .vecDec ↔ c = 0x13#64) ∧
    (decode c = .ok .vecReadWord ↔ c = 0x14#64) ∧ (decode c = .ok .fltAdd ↔ c = 0x30#64) ∧
    (decode c = .ok .fltRemove ↔ c = 0x31#64) ∧ (decode c = .ok .fltContains ↔ c = 0x32#64)) ∧
  ∀ (c : Word) (i : Instr), decode c = .ok i ↔ c = encode i

/-- 10_state.md R38, 20_memory.md R70: a legal word written to CMD runs as the command it decodes to, on the state without
the access; a placed command and an assembler mnemonic likewise. -/
def Obligations.StepRunsDecodedCommand : Prop :=
  (∀ (s : State) (rest : List HostEvent) (c : Word) (i : Instr),
    s.pending = .access (.write 64 0x78 c) :: rest → decode c = .ok i → step s = exec i { s with pending := rest }) ∧
  (∀ (s : State) (i : Instr), step (s.withFetchWord 64 (encode i).toNat) = exec i s) ∧
  ∀ (s : State) (rest : List HostEvent) (i : Instr),
    s.pending = asmEvent (.command i) :: rest → step s = exec i { s with pending := rest }

/-- 30_encoding.md R94: which words are legal, how many opcodes are not, and what an illegal word does in every state. -/
def Obligations.IllegalWordRaisesIllegalCommand : Prop :=
  (∀ c : Word, (∃ i, decode c = .ok i) ↔ c.extractLsb 63 8 = 0#56 ∧ c.extractLsb 7 0 ∈ [0x00#8, 0x01#8, 0x02#8, 0x03#8,
    0x10#8, 0x11#8, 0x12#8, 0x13#8, 0x14#8, 0x20#8, 0x21#8, 0x30#8, 0x31#8, 0x32#8]) ∧
  ((List.range 256).filter fun n =>
    match decode (BitVec.ofNat 64 n) with
    | .ok _ => false
    | .error _ => true).length = 242 ∧
  ∀ (s : State) (rest : List HostEvent) (c : Word), s.pending = .access (.write 64 0x78 c) :: rest →
    (∀ i, decode c ≠ .ok i) →
    step s = .next { s with pending := rest, err := 1#4, errSticky := true, errOp := c.extractLsb 7 0 }

/-- 20_memory.md R65, R66: a read returns the register as it stands and changes nothing. -/
def Obligations.ReadReturnsRegisterWithoutSideEffect : Prop :=
  ∀ (s : State) (rest : List HostEvent) (r : Reg), s.pending = .access (.read 64 (regOffset r)) :: rest →
    step s = .next { s with pending := rest, observed := s.observed ++ [regRead s r] }

/-- 10_state.md R21, R22, R23, R29, R30: where the registers lie, and the fields of ID, PARAMS, GEOM and STATUS. -/
def Obligations.RegisterWindowLayout : Prop :=
  registerMap.map regOffset =
    [0x00, 0x08, 0x10, 0x18, 0x20, 0x28, 0x30, 0x38, 0x40, 0x48, 0x50, 0x58, 0x60, 0x68, 0x70, 0x78] ∧
  ∀ s : State,
    (regRead s .id).extractLsb 63 32 = 0x5043_5645#32 ∧ (regRead s .id).extractLsb 31 16 = 0#16 ∧
    (regRead s .id).extractLsb 15 0 = 1#16 ∧
    ((regRead s .params).extractLsb 7 0).toNat = s.wordBits ∧ (regRead s .params).extractLsb 31 8 = 0#24 ∧
    (regRead s .params).extractLsb 63 32 = s.build.maxWords ∧
    (regRead s .geom).extractLsb 7 0 = s.epw ∧ (regRead s .geom).extractLsb 31 8 = 0#24 ∧
    (regRead s .geom).extractLsb 63 32 = s.numWords ∧
    (regRead s .status).getLsbD 0 = s.configured ∧ (regRead s .status).getLsbD 1 = s.hsValid ∧
    (regRead s .status).getLsbD 2 = s.errSticky ∧ (regRead s .status).getLsbD 3 = false ∧
    (regRead s .status).extractLsb 7 4 = s.err ∧ (regRead s .status).extractLsb 15 8 = s.errOp ∧
    (regRead s .status).extractLsb 63 16 = 0#48

/-- 10_state.md R28: while configured a write to CFG_* is ignored; while not, it stores the value, reserved bits excepted. -/
def Obligations.ConfigurationWritesAreLocked : Prop :=
  ∀ (s : State) (rest : List HostEvent) (v : Word),
    (s.configured = true → ∀ offset ∈ [0x10, 0x18, 0x20, 0x28],
      s.pending = .access (.write 64 offset v) :: rest → step s = .next { s with pending := rest }) ∧
    (s.configured = false →
      (s.pending = .access (.write 64 0x10 v) :: rest →
        step s = .next { s with pending := rest, cfgMode := v.extractLsb 1 0 }) ∧
      (s.pending = .access (.write 64 0x18 v) :: rest → step s = .next { s with pending := rest, cfgNumElements := v }) ∧
      (s.pending = .access (.write 64 0x20 v) :: rest →
        step s = .next { s with pending := rest, cfgElementBits := v.extractLsb 7 0 }) ∧
      (s.pending = .access (.write 64 0x28 v) :: rest →
        step s = .next { s with pending := rest, cfgNumHashes := v.extractLsb 31 0 }))

/-- 10_state.md R31 to R34: a write to an operand register stores all 64 bits, configured or not. -/
def Obligations.OperandWritesStore : Prop :=
  ∀ (s : State) (rest : List HostEvent) (v : Word),
    (s.pending = .access (.write 64 0x40 v) :: rest → step s = .next { s with pending := rest, argIndex := v }) ∧
    (s.pending = .access (.write 64 0x48 v) :: rest → step s = .next { s with pending := rest, argValue := v }) ∧
    (s.pending = .access (.write 64 0x50 v) :: rest → step s = .next { s with pending := rest, digest0 := v }) ∧
    (s.pending = .access (.write 64 0x58 v) :: rest → step s = .next { s with pending := rest, digest1 := v })

/-- 10_state.md R39: a write to a read-only register is ignored; reserved bits read 0 whatever was written; every storable
field stores the value written. -/
def Obligations.ReadOnlyAndReservedBits : Prop :=
  (∀ (s : State) (rest : List HostEvent) (v : Word), ∀ offset ∈ [0x00, 0x08, 0x30, 0x38, 0x60, 0x68, 0x70],
    s.pending = .access (.write 64 offset v) :: rest → step s = .next { s with pending := rest }) ∧
  (∀ s : State, (regRead s .id).extractLsb 31 16 = 0#16 ∧ (regRead s .params).extractLsb 31 8 = 0#24 ∧
    (regRead s .cfgMode).extractLsb 63 2 = 0#62 ∧ (regRead s .cfgElementBits).extractLsb 63 8 = 0#56 ∧
    (regRead s .cfgNumHashes).extractLsb 63 32 = 0#32 ∧ (regRead s .geom).extractLsb 31 8 = 0#24 ∧
    (regRead s .status).getLsbD 3 = false ∧ (regRead s .status).extractLsb 63 16 = 0#48) ∧
  ∀ (s : State) (v : Word), s.configured = false →
    regRead (regWrite s .cfgMode v) .cfgMode = v &&& 0x3#64 ∧
    regRead (regWrite s .cfgNumElements v) .cfgNumElements = v ∧
    regRead (regWrite s .cfgElementBits v) .cfgElementBits = v &&& 0xFF#64 ∧
    regRead (regWrite s .cfgNumHashes v) .cfgNumHashes = v &&& 0xFFFF_FFFF#64 ∧
    regRead (regWrite s .argIndex v) .argIndex = v ∧ regRead (regWrite s .argValue v) .argValue = v ∧
    regRead (regWrite s .digest0 v) .digest0 = v ∧ regRead (regWrite s .digest1 v) .digest1 = v

/-- 20_memory.md R64: an access that is not 64 bits wide at a multiple of 8 from 0x00 to 0x78 is refused; every other one is
not. -/
def Obligations.OnlyAlignedSixtyFourBitAccessesAdmitted : Prop :=
  ∀ (s : State) (rest : List HostEvent) (width offset : Nat) (v : Word),
    (¬ (width = 64 ∧ offset % 8 = 0 ∧ offset ≤ 0x78) →
      (s.pending = .access (.read width offset) :: rest → step s = .refused .busError) ∧
      (s.pending = .access (.write width offset v) :: rest → step s = .refused .busError)) ∧
    (width = 64 ∧ offset % 8 = 0 ∧ offset ≤ 0x78 →
      (s.pending = .access (.read width offset) :: rest → ∃ t, step s = .next t) ∧
      (s.pending = .access (.write width offset v) :: rest → ∀ r, step s ≠ .refused r))

/-- 70_reset_and_hazards.md R270, R272: reset gives every register its reset value, and a command in progress leaves
nothing; an access held at the bus gets no answer from the engine (log 7). -/
def Obligations.ResetEventRestoresResetState : Prop :=
  ∀ (s : State) (rest : List HostEvent),
    (∀ (running : Option Word) (held : List Access), s.pending = .reset running held :: rest →
      ∃ t, step s = .next t ∧ t.pending = held.map .heldAtReset ++ rest ∧ t.observed = s.observed ∧
        t = { State.resetOf s.build with storageEpoch := t.storageEpoch, pending := t.pending, observed := t.observed }) ∧
    (∀ a : Access, s.pending = .heldAtReset a :: rest → step s = .refused .heldAtReset)

/-- 20_memory.md R69, 60_exceptions.md R255: with no host event the engine changes no state. -/
def Obligations.IdleEngineChangesNothing : Prop :=
  ∀ s : State, s.pending = [] → step s = .next s

/-- 40_control.md R121: NOP, in every state. -/
def Obligations.NopOnlyClearsErr : Prop :=
  ∀ s : State, exec .nop s = .next { s with err := 0#4 }

/-- 40_control.md R125: CLEAR_ERR, in every state, and that no other command clears ERR_STICKY or ERR_OP. -/
def Obligations.ClearErrClearsStickyRecord : Prop :=
  (∀ s : State, exec .clearErr s = .next { s with errSticky := false, errOp := 0#8, err := 0#4 }) ∧
  ∀ (i : Instr) (s t : State), i ≠ .clearErr → exec i s = .next t →
    (s.errSticky = true → t.errSticky = true) ∧ (t.errOp = s.errOp ∨ (t.err ≠ 0#4 ∧ t.errOp = opcode i))

/-- 40_control.md R122: CONFIGURE's checks in order, and the construction. EPW = S div W, NW = ceil_div(N, EPW). -/
def Obligations.ConfigureConstructsStorage : Prop :=
  ∀ (s : State) (EPW NW : Nat), EPW = s.wordBits / s.elementBits → NW = (s.numElements + EPW - 1) / EPW →
    (s.configured = true → failsWith .configure 3#4 s) ∧
    (s.configured = false → s.cfgMode = 3#2 → failsWith .configure 4#4 s) ∧
    (s.configured = false → s.cfgMode ≠ 3#2 → ¬ legalWidth s → failsWith .configure 5#4 s) ∧
    (s.configured = false → s.cfgMode ≠ 3#2 → legalWidth s →
      (s.cfgMode ≠ 0#2 ∧ s.numElements = 0) ∨ s.build.maxWords.toNat < NW → failsWith .configure 6#4 s) ∧
    (s.configured = false → s.cfgMode ≠ 3#2 → legalWidth s →
      ¬ ((s.cfgMode ≠ 0#2 ∧ s.numElements = 0) ∨ s.build.maxWords.toNat < NW) →
      s.cfgMode ≠ 0#2 ∧ s.numHashes = 0 → failsWith .configure 7#4 s) ∧
    (s.configured = false → s.cfgMode ≠ 3#2 → legalWidth s →
      ¬ ((s.cfgMode ≠ 0#2 ∧ s.numElements = 0) ∨ s.build.maxWords.toNat < NW) →
      ¬ (s.cfgMode ≠ 0#2 ∧ s.numHashes = 0) →
      ∃ t, exec .configure s = .next t ∧
        t = { s with words := t.words, epw := t.epw, numWords := t.numWords, configured := true, err := 0#4 } ∧
        t.epw.toNat = EPW ∧ t.numWords.toNat = NW ∧ ∀ j < NW, memRead t j = 0#64)

/-- 40_control.md R123: exactly the table's configurations are accepted, with its EPW and NUM_WORDS. -/
def Obligations.LegalConfigurationsAreTheTable : Prop :=
  ∀ s : State, s.configured = false →
    ((∃ t, exec .configure s = .next t ∧ t.err = 0#4) ↔
      (s.cfgMode = 0#2 ∧ 1 ≤ s.elementBits ∧ s.elementBits ≤ s.wordBits ∧
        s.numElements ≤ s.build.maxWords.toNat * (s.wordBits / s.elementBits)) ∨
      (s.cfgMode = 1#2 ∧ s.elementBits = 1 ∧ 1 ≤ s.numElements ∧
        s.numElements ≤ s.build.maxWords.toNat * s.wordBits ∧ 1 ≤ s.numHashes) ∨
      (s.cfgMode = 2#2 ∧ s.elementBits = 4 ∧ 1 ≤ s.numElements ∧
        s.numElements ≤ s.build.maxWords.toNat * (s.wordBits / 4) ∧ 1 ≤ s.numHashes)) ∧
    ∀ t, exec .configure s = .next t → t.err = 0#4 →
      (s.cfgMode = 0#2 → t.epw.toNat = s.wordBits / s.elementBits ∧
        t.numWords.toNat = ceilDiv s.numElements (s.wordBits / s.elementBits)) ∧
      (s.cfgMode = 1#2 → t.epw.toNat = s.wordBits ∧ t.numWords.toNat = ceilDiv s.numElements s.wordBits) ∧
      (s.cfgMode = 2#2 → t.epw.toNat = s.wordBits / 4 ∧ t.numWords.toNat = ceilDiv s.numElements (s.wordBits / 4))

/-- 40_control.md R124: RELEASE. The storage content becomes unspecified: nothing is listed and the epoch advances (log 3). -/
def Obligations.ReleaseFreesStorage : Prop :=
  ∀ s : State, (s.configured = false → failsWith .release 2#4 s) ∧
    (s.configured = true → exec .release s = .next
      { s with configured := false, epw := 0#8, numWords := 0#32, words := [], storageEpoch := s.storageEpoch + 1,
               err := 0#4 })

/-- 40_control.md R124, corner case: a following CONFIGURE zeroes storage again, so no counter value survives a RELEASE. -/
def Obligations.ReleaseThenConfigureZeroes : Prop :=
  ∀ s : State, s.inv = true → s.configured = true → ∃ t, runCommands [.release, .configure] s = .next t ∧
    t.configured = true ∧ t.err = 0#4 ∧ t.numElements = s.numElements ∧ ∀ i < s.numElements, fieldGet t i = 0#64

/-- 41_hash_stream.md R152: HS_LOAD, in every state. -/
def Obligations.HsLoadStartsStream : Prop :=
  ∀ s : State, exec .hsLoad s = .next
    { s with hsBase := s.digest0, hsIncr := s.digest0.extractLsb 31 0 ++ s.digest1.extractLsb 63 32,
             hsValid := true, err := 0#4 }

/-- 41_hash_stream.md R153: HS_NEXT emits the base and advances it modulo 2^64, or fails with STREAM_NOT_LOADED. -/
def Obligations.HsNextEmitsAndAdvances : Prop :=
  ∀ s : State, (s.hsValid = false → failsWith .hsNext 10#4 s) ∧
    (s.hsValid = true → exec .hsNext s = .next
      { s with result := s.hsBase, hsBase := BitVec.ofNat 64 ((s.hsBase.toNat + s.hsIncr.toNat) % 2 ^ 64), err := 0#4 })

/-- 41_hash_stream.md R154: after an HS_LOAD and any commands that write HS_BASE by HS_NEXT only, the n-th HS_NEXT gives
h_n; and n + 1 of them in a row complete. -/
def Obligations.StreamClosedForm : Prop :=
  (∀ (s t : State) (l : List Instr), (∀ i ∈ l, i ≠ .hsLoad ∧ i ≠ .fltAdd ∧ i ≠ .fltRemove ∧ i ≠ .fltContains) →
    runCommands (.hsLoad :: (l ++ [.hsNext])) s = .next t →
    t.result = BitVec.ofNat 64 (hashValue s (l.count .hsNext)) ∧
    t.hsBase = BitVec.ofNat 64 (hashValue s (l.count .hsNext + 1))) ∧
  ∀ (s : State) (n : Nat), ∃ t, runCommands (.hsLoad :: List.replicate (n + 1) .hsNext) s = .next t ∧
    t.result = BitVec.ofNat 64 (hashValue s n)

/-- 41_hash_stream.md R155: the values depend on DIGEST_0 and DIGEST_1[63:32] alone, whatever else differs. -/
def Obligations.StreamDependsOnDigestAlone : Prop :=
  ∀ (s s' : State) (n : Nat), s.digest0 = s'.digest0 → s.digest1.extractLsb 63 32 = s'.digest1.extractLsb 63 32 →
    ∃ t t', runCommands (.hsLoad :: List.replicate (n + 1) .hsNext) s = .next t ∧
      runCommands (.hsLoad :: List.replicate (n + 1) .hsNext) s' = .next t' ∧ t.result = t'.result

/-- 41_hash_stream.md R156: right after HS_LOAD the upper half of the increment is the lower half of the base. -/
def Obligations.IncrementOverlapsBase : Prop :=
  ∀ s t : State, exec .hsLoad s = .next t → t.hsIncr.extractLsb 63 32 = t.hsBase.extractLsb 31 0

/-- 20_memory.md R61, 41_hash_stream.md R151: with a digest packed as R33 and R34 say, HS_LOAD gives BE64 of bytes 0 to 7
and BE64 of bytes 4 to 11; BE64 is the sum of R11. -/
def Obligations.DigestIsReadBigEndian : Prop :=
  (∀ b0 b1 b2 b3 b4 b5 b6 b7 : Byte, (be64 b0 b1 b2 b3 b4 b5 b6 b7).toNat =
    b0.toNat * 2 ^ 56 + b1.toNat * 2 ^ 48 + b2.toNat * 2 ^ 40 + b3.toNat * 2 ^ 32 + b4.toNat * 2 ^ 24 +
      b5.toNat * 2 ^ 16 + b6.toNat * 2 ^ 8 + b7.toNat) ∧
  ∀ (d : Vector Byte 16) (s : State), s.digest0 = packDigest0 d → s.digest1 = packDigest1 d →
    ∃ t, exec .hsLoad s = .next t ∧ t.hsBase = be64 d[0] d[1] d[2] d[3] d[4] d[5] d[6] d[7] ∧
      t.hsIncr = be64 d[4] d[5] d[6] d[7] d[8] d[9] d[10] d[11]

/-- 42_counter_vector.md R176, with the field of R171 and R173: VEC_GET. -/
def Obligations.VecGetReadsCounter : Prop :=
  ∀ (s : State) (i : Nat), i = s.argIndex.toNat →
    (s.configured = false → failsWith .vecGet 2#4 s) ∧
    (s.configured = true → s.numElements ≤ i → failsWith .vecGet 8#4 s) ∧
    (s.inv = true → s.configured = true → i < s.numElements →
      ∃ v : Word, exec .vecGet s = .next { s with result := v, err := 0#4 } ∧
        v.toNat = (memRead s (i / s.epw.toNat)).toNat / 2 ^ (s.wordBits - s.elementBits * (i % s.epw.toNat + 1))
          % 2 ^ s.elementBits)

/-- 42_counter_vector.md R177: VEC_SET stores min(ARG_VALUE, MAXV) in counter ARG_INDEX and in RESULT, and nothing else. -/
def Obligations.VecSetClampsAndStores : Prop :=
  ∀ (s : State) (i : Nat), i = s.argIndex.toNat →
    (s.configured = false → failsWith .vecSet 2#4 s) ∧
    (s.configured = true → s.numElements ≤ i → failsWith .vecSet 8#4 s) ∧
    (s.inv = true → s.configured = true → i < s.numElements →
      ∃ t, exec .vecSet s = .next t ∧ t = { s with words := t.words, result := t.result, err := 0#4 } ∧
        t.result.toNat = min s.argValue.toNat (2 ^ s.elementBits - 1) ∧ fieldGet t i = t.result ∧
        (∀ j, j ≠ i → fieldGet t j = fieldGet s j) ∧ ∀ k, k ≠ wordIndex s i → memRead t k = memRead s k)

/-- 42_counter_vector.md R178: VEC_INC adds 1 to counter ARG_INDEX, saturating at MAXV. -/
def Obligations.VecIncSaturates : Prop :=
  ∀ (s : State) (i : Nat), i = s.argIndex.toNat →
    (s.configured = false → failsWith .vecInc 2#4 s) ∧
    (s.configured = true → s.numElements ≤ i → failsWith .vecInc 8#4 s) ∧
    (s.inv = true → s.configured = true → i < s.numElements →
      ∃ t, exec .vecInc s = .next t ∧ t = { s with words := t.words, result := t.result, err := 0#4 } ∧
        t.result.toNat = min ((fieldGet s i).toNat + 1) (2 ^ s.elementBits - 1) ∧ fieldGet t i = t.result ∧
        (∀ j, j ≠ i → fieldGet t j = fieldGet s j) ∧ ∀ k, k ≠ wordIndex s i → memRead t k = memRead s k)

/-- 42_counter_vector.md R179: VEC_DEC subtracts 1 from counter ARG_INDEX, saturating at 0. -/
def Obligations.VecDecSaturates : Prop :=
  ∀ (s : State) (i : Nat), i = s.argIndex.toNat →
    (s.configured = false → failsWith .vecDec 2#4 s) ∧
    (s.configured = true → s.numElements ≤ i → failsWith .vecDec 8#4 s) ∧
    (s.inv = true → s.configured = true → i < s.numElements →
      ∃ t, exec .vecDec s = .next t ∧ t = { s with words := t.words, result := t.result, err := 0#4 } ∧
        t.result.toNat = (fieldGet s i).toNat - 1 ∧ fieldGet t i = t.result ∧
        (∀ j, j ≠ i → fieldGet t j = fieldGet s j) ∧ ∀ k, k ≠ wordIndex s i → memRead t k = memRead s k)

/-- 42_counter_vector.md R180: VEC_READ_WORD returns storage word ARG_INDEX, zero-extended from S bits. -/
def Obligations.VecReadWordReturnsWord : Prop :=
  ∀ (s : State) (j : Nat), j = s.argIndex.toNat →
    (s.configured = false → failsWith .vecReadWord 2#4 s) ∧
    (s.configured = true → s.numWords.toNat ≤ j → failsWith .vecReadWord 8#4 s) ∧
    (s.inv = true → s.configured = true → j < s.numWords.toNat →
      exec .vecReadWord s = .next { s with result := memRead s j, err := 0#4 } ∧ (memRead s j).toNat < 2 ^ s.wordBits)

/-- 42_counter_vector.md R183: a get after a set returns the clamped value, for every legal width and every index below N. -/
def Obligations.SetThenGetReturnsClampedValue : Prop :=
  ∀ s : State, s.inv = true → s.configured = true → s.argIndex.toNat < s.numElements →
    ∃ t, runCommands [.vecSet, .vecGet] s = .next t ∧ t.err = 0#4 ∧
      t.result.toNat = min s.argValue.toNat (2 ^ s.elementBits - 1)

/-- 42_counter_vector.md R184: a set, inc or dec of index i changes no other counter and no bit outside the counters. -/
def Obligations.CounterCommandsDoNotInterfere : Prop :=
  ∀ (i : Instr) (s t : State), i = .vecSet ∨ i = .vecInc ∨ i = .vecDec → s.inv = true → exec i s = .next t →
    (∀ j, j ≠ s.argIndex.toNat → fieldGet t j = fieldGet s j) ∧
    ∀ j b, counterBit s j b = false → (memRead t j).getLsbD b = (memRead s j).getLsbD b

/-- 42_counter_vector.md R182: n increments give min(v + n, MAXV), n decrements max(v − n, 0). -/
def Obligations.RepeatedIncAndDecSaturate : Prop :=
  ∀ (s : State) (n : Nat), s.inv = true → s.configured = true → s.argIndex.toNat < s.numElements →
    (∃ t, runCommands (List.replicate n .vecInc) s = .next t ∧ (fieldGet t s.argIndex.toNat).toNat =
      min ((fieldGet s s.argIndex.toNat).toNat + n) (2 ^ s.elementBits - 1)) ∧
    ∃ t, runCommands (List.replicate n .vecDec) s = .next t ∧ (fieldGet t s.argIndex.toNat).toNat =
      (fieldGet s s.argIndex.toNat).toNat - n

/-- 42_counter_vector.md R181, 10_state.md R46 b and c: padding bits and the fields of indices at or above N read 0. -/
def Obligations.PaddingAndUnusedSlotsReadZero : Prop :=
  ∀ (s : State) (j b : Nat), s.inv = true → s.configured = true → j < s.numWords.toNat →
    (b < s.wordBits - s.elementBits * s.epw.toNat → (memRead s j).getLsbD b = false) ∧
    ∀ slot < s.epw.toNat, s.numElements ≤ j * s.epw.toNat + slot →
      s.wordBits - s.elementBits * (slot + 1) ≤ b → b < s.wordBits - s.elementBits * slot →
      (memRead s j).getLsbD b = false

/-- 42_counter_vector.md R174, R171: FieldPut replaces the W bits from lsb(i) of word i div EPW by the value's, and changes
no other bit of any word. -/
def Obligations.FieldPutReplacesExactlyItsField : Prop :=
  ∀ (s : State) (i : Nat) (v : Word), s.inv = true → s.configured = true → i < s.numElements →
    v.toNat ≤ 2 ^ s.elementBits - 1 → ∀ lsb, lsb = s.wordBits - s.elementBits * (i % s.epw.toNat + 1) →
    ∀ k b, (memRead (fieldPut s i v) k).getLsbD b =
      if k = i / s.epw.toNat ∧ lsb ≤ b ∧ b < lsb + s.elementBits then v.getLsbD (b - lsb) else (memRead s k).getLsbD b

/-- 43_filter.md R214: FLT_ADD, as the sum of its k steps: a bit set where some idx_t hits it, a counter raised by the number
of hits up to 15; the stream k values on; no other word changed. -/
def Obligations.FltAddInsertsKey : Prop :=
  ∀ s : State,
    (s.configured = false → failsWith .fltAdd 2#4 s) ∧
    (s.configured = true → s.cfgMode = 0#2 → failsWith .fltAdd 9#4 s) ∧
    (s.inv = true → s.configured = true → s.cfgMode ≠ 0#2 → ∃ t, exec .fltAdd s = .next t ∧
      t = { s with words := t.words, hsBase := BitVec.ofNat 64 (hashValue s s.numHashes), hsIncr := hashIncrement s,
                   hsValid := true, err := 0#4 } ∧
      (∀ i < s.numElements,
        (s.cfgMode = 1#2 → (fieldGet t i).toNat = if i ∈ slotIndices s then 1 else (fieldGet s i).toNat) ∧
        (s.cfgMode = 2#2 → (fieldGet t i).toNat = min 15 ((fieldGet s i).toNat + (slotIndices s).count i))) ∧
      ∀ k, k ∉ (slotIndices s).map (wordIndex s) → memRead t k = memRead s k)

/-- 43_filter.md R215: FLT_REMOVE, as the sum of its k steps: a counter lowered by the number of hits, down to 0. -/
def Obligations.FltRemoveDeletesKey : Prop :=
  ∀ s : State,
    (s.configured = false → failsWith .fltRemove 2#4 s) ∧
    (s.configured = true → s.cfgMode = 0#2 ∨ s.cfgMode = 1#2 → failsWith .fltRemove 9#4 s) ∧
    (s.inv = true → s.configured = true → s.cfgMode ≠ 0#2 → s.cfgMode ≠ 1#2 → ∃ t, exec .fltRemove s = .next t ∧
      t = { s with words := t.words, hsBase := BitVec.ofNat 64 (hashValue s s.numHashes), hsIncr := hashIncrement s,
                   hsValid := true, err := 0#4 } ∧
      (∀ i < s.numElements, (fieldGet t i).toNat = (fieldGet s i).toNat - (slotIndices s).count i) ∧
      ∀ k, k ∉ (slotIndices s).map (wordIndex s) → memRead t k = memRead s k)

/-- 43_filter.md R216: FLT_CONTAINS: the conjunction over all k positions, storage unchanged, the stream k values on. -/
def Obligations.FltContainsTestsAllSlots : Prop :=
  ∀ s : State,
    (s.configured = false → failsWith .fltContains 2#4 s) ∧
    (s.configured = true → s.cfgMode = 0#2 → failsWith .fltContains 9#4 s) ∧
    (s.inv = true → s.configured = true → s.cfgMode ≠ 0#2 → exec .fltContains s = .next
      { s with result := if ∀ i ∈ slotIndices s, fieldGet s i ≠ 0#64 then 1#64 else 0#64,
               hsBase := BitVec.ofNat 64 (hashValue s s.numHashes), hsIncr := hashIncrement s, hsValid := true,
               err := 0#4 })

/-- 43_filter.md R211: the indices a filter command acts on, k of them, each a 64-bit hash value modulo N and below N. -/
def Obligations.FilterSlotsAreHashValuesModN : Prop :=
  ∀ s : State, filterSlots s = slotIndices s ∧ (filterSlots s).length = s.numHashes ∧
    (1 ≤ s.numElements → ∀ i ∈ filterSlots s, i < s.numElements)

/-- 43_filter.md R212: a filter command that completes leaves the stream as an HS_LOAD and k HS_NEXTs would, RESULT apart; one
that fails leaves it unchanged. -/
def Obligations.FilterLeavesStreamAsLoadAndNexts : Prop :=
  ∀ (i : Instr) (s t : State), i = .fltAdd ∨ i = .fltRemove ∨ i = .fltContains → exec i s = .next t →
    (t.err = 0#4 → t.hsBase = BitVec.ofNat 64 (hashValue s s.numHashes) ∧ t.hsIncr = hashIncrement s ∧ t.hsValid = true ∧
      ∃ u, runCommands (.hsLoad :: List.replicate s.numHashes .hsNext) s = .next u ∧
        t.hsBase = u.hsBase ∧ t.hsIncr = u.hsIncr ∧ t.hsValid = u.hsValid) ∧
    (i ≠ .fltContains → t.result = s.result) ∧
    (t.err ≠ 0#4 → t.hsBase = s.hsBase ∧ t.hsIncr = s.hsIncr ∧ t.hsValid = s.hsValid)

/-- 43_filter.md R217: the counters a filter command leaves do not depend on the order of its k steps. -/
def Obligations.FilterOrderDoesNotMatter : Prop :=
  ∀ (s : State) (l : List Nat), s.inv = true → s.configured = true → s.cfgMode ≠ 0#2 → l.Perm (filterSlots s) →
    ∀ i, fieldGet (l.foldl addSlot s) i = fieldGet ((filterSlots s).foldl addSlot s) i ∧
      fieldGet (l.foldl removeSlot s) i = fieldGet ((filterSlots s).foldl removeSlot s) i

/-- 43_filter.md R218: no filter command raises INDEX_ERROR, and in a filter mode every idx_t lies below N. -/
def Obligations.FiltersNeverRaiseIndexError : Prop :=
  (∀ (i : Instr) (s t : State), i = .fltAdd ∨ i = .fltRemove ∨ i = .fltContains → exec i s = .next t → t.err ≠ 8#4) ∧
  ∀ s : State, s.inv = true → s.configured = true → s.cfgMode ≠ 0#2 → ∀ i ∈ filterSlots s, i < s.numElements

/-- 43_filter.md R220, in parentheses: only FLT_REMOVE, VEC_SET, VEC_DEC, RELEASE and reset can lower a counter. -/
def Obligations.CountersOnlyLoweredByNamedCommands : Prop :=
  ∀ (s t : State) (e : HostEvent) (rest : List HostEvent), s.inv = true → s.configured = true → s.pending = e :: rest →
    lowersCounters e = false → step s = .next t →
    t.configured = true ∧ t.numElements = s.numElements ∧
      ∀ i < s.numElements, (fieldGet s i).toNat ≤ (fieldGet t i).toNat

/-- 43_filter.md R220: after FLT_ADD of a digest, and any host events none of which can lower a counter, FLT_CONTAINS of the
same digest returns 1. -/
def Obligations.NoFalseNegatives : Prop :=
  ∀ (s a u : State) (n : Nat), s.inv = true → s.configured = true → s.cfgMode ≠ 0#2 → exec .fltAdd s = .next a →
    core.run n a = .next u → (∀ e ∈ a.pending.take n, lowersCounters e = false) →
    u.digest0 = s.digest0 → u.digest1 = s.digest1 →
    ∃ v, exec .fltContains u = .next v ∧ v.err = 0#4 ∧ v.result = 1#64

/-- 43_filter.md R221: in COUNTING mode, with the k counters of a digest at 0, add, remove and contains give 0 and the
counters are 0 again. -/
def Obligations.AddThenRemoveRestoresAbsence : Prop :=
  ∀ s : State, s.inv = true → s.configured = true → s.cfgMode = 2#2 → (∀ i ∈ slotIndices s, fieldGet s i = 0#64) →
    ∃ t, runCommands [.fltAdd, .fltRemove, .fltContains] s = .next t ∧ t.err = 0#4 ∧ t.result = 0#64 ∧
      ∀ i ∈ slotIndices s, fieldGet t i = 0#64

/-- 30_encoding.md R92: the frame of every command, in every state: a failing one writes the error fields alone, a
succeeding one the state its row names; and no storage word changes but those it stores to. -/
def Obligations.CommandsWriteOnlyTheirColumns : Prop :=
  ∀ (i : Instr) (s t : State), exec i s = .next t →
    (t.err = 0#4 → t = writtenBy i s t) ∧
    (t.err ≠ 0#4 → t = { s with err := t.err, errSticky := t.errSticky, errOp := t.errOp }) ∧
    (i ≠ .release → ∀ k, k ∉ storesTo i s → memRead t k = memRead s k)

/-- 60_exceptions.md R240, R241, R242: errors are precise, for every command word; and a command that completes leaves
ERR_STICKY and ERR_OP as they were (CLEAR_ERR apart). -/
def Obligations.ErrorsArePrecise : Prop :=
  ∀ (s t : State) (rest : List HostEvent) (c : Word), s.pending = .access (.write 64 0x78 c) :: rest → step s = .next t →
    (t.err ≠ 0#4 →
      t = { s with pending := rest, err := t.err, errSticky := true, errOp := c.extractLsb 7 0 }) ∧
    (t.err = 0#4 → c ≠ 0x03#64 → t.errSticky = s.errSticky ∧ t.errOp = s.errOp)

/-- 60_exceptions.md R243: a command reports OK or one of the codes its row of the table lets it raise. -/
def Obligations.CommandsRaiseOnlyTheirCodes : Prop :=
  ∀ (i : Instr) (s t : State), exec i s = .next t → t.err = 0#4 ∨ t.err ∈ raisableCodes i

/-- 10_state.md R30: which events set and clear CONFIGURED, HS_VALID and ERR_STICKY. -/
def Obligations.StatusBitsChangeOnlyByNamedEvents : Prop :=
  ∀ (s t : State) (e : HostEvent) (rest : List HostEvent), s.pending = e :: rest → step s = .next t →
    (s.configured = true → t.configured = false →
      e = .access (.write 64 0x78 0x02#64) ∨ ∃ c h, e = .reset c h) ∧
    (s.configured = false → t.configured = true → e = .access (.write 64 0x78 0x01#64)) ∧
    (s.hsValid = true → t.hsValid = false → ∃ c h, e = .reset c h) ∧
    (s.hsValid = false → t.hsValid = true →
      ∃ c ∈ [0x20#64, 0x30#64, 0x31#64, 0x32#64], e = .access (.write 64 0x78 c)) ∧
    (s.errSticky = true → t.errSticky = false →
      e = .access (.write 64 0x78 0x03#64) ∨ ∃ c h, e = .reset c h) ∧
    (s.errSticky = false → t.errSticky = true → t.err ≠ 0#4 ∧ ∃ c, e = .access (.write 64 0x78 c))

/-- 10_state.md R28, R29: while storage stays allocated, no step changes the configuration or the geometry. -/
def Obligations.GeometryFixedWhileConfigured : Prop :=
  ∀ s t : State, step s = .next t → s.configured = true → t.configured = true →
    t.cfgMode = s.cfgMode ∧ t.cfgNumElements = s.cfgNumElements ∧ t.cfgElementBits = s.cfgElementBits ∧
    t.cfgNumHashes = s.cfgNumHashes ∧ t.epw = s.epw ∧ t.numWords = s.numWords

/-- 00_scope.md R7, 10_state.md R20, R23: the build parameters are fixed: no step changes them. -/
def Obligations.BuildParametersNeverChange : Prop :=
  ∀ s t : State, step s = .next t → t.build = s.build

/-- 10_state.md R31 to R34, 70_reset_and_hazards.md R283: no command writes the operand or configuration registers; only a
host write of the register itself, or reset, changes one. -/
def Obligations.OperandsPersistAcrossCommands : Prop :=
  ∀ (s t : State) (e : HostEvent) (rest : List HostEvent), s.pending = e :: rest → step s = .next t →
    (∀ c h, e ≠ .reset c h) →
    (t.argIndex ≠ s.argIndex → ∃ v, e = .access (.write 64 0x40 v)) ∧
    (t.argValue ≠ s.argValue → ∃ v, e = .access (.write 64 0x48 v)) ∧
    (t.digest0 ≠ s.digest0 → ∃ v, e = .access (.write 64 0x50 v)) ∧
    (t.digest1 ≠ s.digest1 → ∃ v, e = .access (.write 64 0x58 v)) ∧
    (t.cfgMode ≠ s.cfgMode → ∃ v, e = .access (.write 64 0x10 v)) ∧
    (t.cfgNumElements ≠ s.cfgNumElements → ∃ v, e = .access (.write 64 0x18 v)) ∧
    (t.cfgElementBits ≠ s.cfgElementBits → ∃ v, e = .access (.write 64 0x20 v)) ∧
    (t.cfgNumHashes ≠ s.cfgNumHashes → ∃ v, e = .access (.write 64 0x28 v))

/-- 10_state.md R46: every step keeps the invariant: the canonical form of the storage, zero padding, the geometry, GEOM 0
while not configured, ERR at most 10. -/
def Obligations.StepKeepsTheInvariant : Prop :=
  ∀ s t : State, s.inv = true → step s = .next t → t.inv = true

/-- 10_state.md R48, 93_implementation_defined.md I7 to I9: what unspecified storage holds is never observable: with other
unspecified contents (another epoch of the free value) a step gives the same state, those contents apart. -/
def Obligations.UnspecifiedStorageIsUnobservable : Prop :=
  ∀ (s t : State) (d : Nat), s.inv = true → step s = .next t →
    step { s with storageEpoch := s.storageEpoch + d } = .next { t with storageEpoch := t.storageEpoch + d }

/-- 70_reset_and_hazards.md R287: every command completes, with an error or without: none faults, none refuses. -/
def Obligations.EveryCommandCompletes : Prop :=
  ∀ (i : Instr) (s : State), s.inv = true → ∃ t, exec i s = .next t

/-- 70_reset_and_hazards.md R274: the host's sizing rejects zero items, and a rate that is not a number strictly between 0
and 1, before any register is written; R278: it rejects what CFG_NUM_HASHES cannot hold. -/
def Obligations.SizingRejectsBadInputs : Prop :=
  (∀ (counting : Bool) (n : Nat) (p : Binary64), n = 0 ∨ p = .nan ∨ p = .infinite ∨
    (∃ x, p = .finite x ∧ (x ≤ 0 ∨ 1 ≤ x)) → filterBoot counting n p = none) ∧
  ∀ (counting : Bool) (nb nh : Nat), 2 ^ 32 ≤ nh → filterConfiguration counting nb nh = none
end

