-- ==== Sys2Proof/Laws/State.lean ====
section
/-! SUPPORT. What each named update of the state does to each field: one lemma per field. -/

namespace Sys2Proof.Machine

@[simp] theorem raiseError_build (op : Byte) (e : ErrorCode) (s : State) : (raiseError op e s).build = s.build := rfl
@[simp] theorem raiseError_cfgMode (op : Byte) (e : ErrorCode) (s : State) : (raiseError op e s).cfgMode = s.cfgMode := rfl
@[simp] theorem raiseError_cfgNumElements (op : Byte) (e : ErrorCode) (s : State) : (raiseError op e s).cfgNumElements = s.cfgNumElements := rfl
@[simp] theorem raiseError_cfgElementBits (op : Byte) (e : ErrorCode) (s : State) : (raiseError op e s).cfgElementBits = s.cfgElementBits := rfl
@[simp] theorem raiseError_cfgNumHashes (op : Byte) (e : ErrorCode) (s : State) : (raiseError op e s).cfgNumHashes = s.cfgNumHashes := rfl
@[simp] theorem raiseError_configured (op : Byte) (e : ErrorCode) (s : State) : (raiseError op e s).configured = s.configured := rfl
@[simp] theorem raiseError_epw (op : Byte) (e : ErrorCode) (s : State) : (raiseError op e s).epw = s.epw := rfl
@[simp] theorem raiseError_numWords (op : Byte) (e : ErrorCode) (s : State) : (raiseError op e s).numWords = s.numWords := rfl
@[simp] theorem raiseError_hsValid (op : Byte) (e : ErrorCode) (s : State) : (raiseError op e s).hsValid = s.hsValid := rfl
@[simp] theorem raiseError_errSticky (op : Byte) (e : ErrorCode) (s : State) : (raiseError op e s).errSticky = true := rfl
@[simp] theorem raiseError_err (op : Byte) (e : ErrorCode) (s : State) : (raiseError op e s).err = errorBits e := rfl
@[simp] theorem raiseError_errOp (op : Byte) (e : ErrorCode) (s : State) : (raiseError op e s).errOp = op := rfl
@[simp] theorem raiseError_argIndex (op : Byte) (e : ErrorCode) (s : State) : (raiseError op e s).argIndex = s.argIndex := rfl
@[simp] theorem raiseError_argValue (op : Byte) (e : ErrorCode) (s : State) : (raiseError op e s).argValue = s.argValue := rfl
@[simp] theorem raiseError_digest0 (op : Byte) (e : ErrorCode) (s : State) : (raiseError op e s).digest0 = s.digest0 := rfl
@[simp] theorem raiseError_digest1 (op : Byte) (e : ErrorCode) (s : State) : (raiseError op e s).digest1 = s.digest1 := rfl
@[simp] theorem raiseError_hsBase (op : Byte) (e : ErrorCode) (s : State) : (raiseError op e s).hsBase = s.hsBase := rfl
@[simp] theorem raiseError_hsIncr (op : Byte) (e : ErrorCode) (s : State) : (raiseError op e s).hsIncr = s.hsIncr := rfl
@[simp] theorem raiseError_result (op : Byte) (e : ErrorCode) (s : State) : (raiseError op e s).result = s.result := rfl
@[simp] theorem raiseError_words (op : Byte) (e : ErrorCode) (s : State) : (raiseError op e s).words = s.words := rfl
@[simp] theorem raiseError_storageEpoch (op : Byte) (e : ErrorCode) (s : State) : (raiseError op e s).storageEpoch = s.storageEpoch := rfl
@[simp] theorem raiseError_pending (op : Byte) (e : ErrorCode) (s : State) : (raiseError op e s).pending = s.pending := rfl
@[simp] theorem raiseError_observed (op : Byte) (e : ErrorCode) (s : State) : (raiseError op e s).observed = s.observed := rfl

@[simp] theorem complete_build (s : State) : (complete s).build = s.build := rfl
@[simp] theorem complete_cfgMode (s : State) : (complete s).cfgMode = s.cfgMode := rfl
@[simp] theorem complete_cfgNumElements (s : State) : (complete s).cfgNumElements = s.cfgNumElements := rfl
@[simp] theorem complete_cfgElementBits (s : State) : (complete s).cfgElementBits = s.cfgElementBits := rfl
@[simp] theorem complete_cfgNumHashes (s : State) : (complete s).cfgNumHashes = s.cfgNumHashes := rfl
@[simp] theorem complete_configured (s : State) : (complete s).configured = s.configured := rfl
@[simp] theorem complete_epw (s : State) : (complete s).epw = s.epw := rfl
@[simp] theorem complete_numWords (s : State) : (complete s).numWords = s.numWords := rfl
@[simp] theorem complete_hsValid (s : State) : (complete s).hsValid = s.hsValid := rfl
@[simp] theorem complete_errSticky (s : State) : (complete s).errSticky = s.errSticky := rfl
@[simp] theorem complete_err (s : State) : (complete s).err = 0#4 := rfl
@[simp] theorem complete_errOp (s : State) : (complete s).errOp = s.errOp := rfl
@[simp] theorem complete_argIndex (s : State) : (complete s).argIndex = s.argIndex := rfl
@[simp] theorem complete_argValue (s : State) : (complete s).argValue = s.argValue := rfl
@[simp] theorem complete_digest0 (s : State) : (complete s).digest0 = s.digest0 := rfl
@[simp] theorem complete_digest1 (s : State) : (complete s).digest1 = s.digest1 := rfl
@[simp] theorem complete_hsBase (s : State) : (complete s).hsBase = s.hsBase := rfl
@[simp] theorem complete_hsIncr (s : State) : (complete s).hsIncr = s.hsIncr := rfl
@[simp] theorem complete_result (s : State) : (complete s).result = s.result := rfl
@[simp] theorem complete_words (s : State) : (complete s).words = s.words := rfl
@[simp] theorem complete_storageEpoch (s : State) : (complete s).storageEpoch = s.storageEpoch := rfl
@[simp] theorem complete_pending (s : State) : (complete s).pending = s.pending := rfl
@[simp] theorem complete_observed (s : State) : (complete s).observed = s.observed := rfl

@[simp] theorem setResult_build (v : Word) (s : State) : (setResult v s).build = s.build := rfl
@[simp] theorem setResult_cfgMode (v : Word) (s : State) : (setResult v s).cfgMode = s.cfgMode := rfl
@[simp] theorem setResult_cfgNumElements (v : Word) (s : State) : (setResult v s).cfgNumElements = s.cfgNumElements := rfl
@[simp] theorem setResult_cfgElementBits (v : Word) (s : State) : (setResult v s).cfgElementBits = s.cfgElementBits := rfl
@[simp] theorem setResult_cfgNumHashes (v : Word) (s : State) : (setResult v s).cfgNumHashes = s.cfgNumHashes := rfl
@[simp] theorem setResult_configured (v : Word) (s : State) : (setResult v s).configured = s.configured := rfl
@[simp] theorem setResult_epw (v : Word) (s : State) : (setResult v s).epw = s.epw := rfl
@[simp] theorem setResult_numWords (v : Word) (s : State) : (setResult v s).numWords = s.numWords := rfl
@[simp] theorem setResult_hsValid (v : Word) (s : State) : (setResult v s).hsValid = s.hsValid := rfl
@[simp] theorem setResult_errSticky (v : Word) (s : State) : (setResult v s).errSticky = s.errSticky := rfl
@[simp] theorem setResult_err (v : Word) (s : State) : (setResult v s).err = s.err := rfl
@[simp] theorem setResult_errOp (v : Word) (s : State) : (setResult v s).errOp = s.errOp := rfl
@[simp] theorem setResult_argIndex (v : Word) (s : State) : (setResult v s).argIndex = s.argIndex := rfl
@[simp] theorem setResult_argValue (v : Word) (s : State) : (setResult v s).argValue = s.argValue := rfl
@[simp] theorem setResult_digest0 (v : Word) (s : State) : (setResult v s).digest0 = s.digest0 := rfl
@[simp] theorem setResult_digest1 (v : Word) (s : State) : (setResult v s).digest1 = s.digest1 := rfl
@[simp] theorem setResult_hsBase (v : Word) (s : State) : (setResult v s).hsBase = s.hsBase := rfl
@[simp] theorem setResult_hsIncr (v : Word) (s : State) : (setResult v s).hsIncr = s.hsIncr := rfl
@[simp] theorem setResult_result (v : Word) (s : State) : (setResult v s).result = v := rfl
@[simp] theorem setResult_words (v : Word) (s : State) : (setResult v s).words = s.words := rfl
@[simp] theorem setResult_storageEpoch (v : Word) (s : State) : (setResult v s).storageEpoch = s.storageEpoch := rfl
@[simp] theorem setResult_pending (v : Word) (s : State) : (setResult v s).pending = s.pending := rfl
@[simp] theorem setResult_observed (v : Word) (s : State) : (setResult v s).observed = s.observed := rfl

@[simp] theorem setStream_build (b i : Word) (s : State) : (setStream b i s).build = s.build := rfl
@[simp] theorem setStream_cfgMode (b i : Word) (s : State) : (setStream b i s).cfgMode = s.cfgMode := rfl
@[simp] theorem setStream_cfgNumElements (b i : Word) (s : State) : (setStream b i s).cfgNumElements = s.cfgNumElements := rfl
@[simp] theorem setStream_cfgElementBits (b i : Word) (s : State) : (setStream b i s).cfgElementBits = s.cfgElementBits := rfl
@[simp] theorem setStream_cfgNumHashes (b i : Word) (s : State) : (setStream b i s).cfgNumHashes = s.cfgNumHashes := rfl
@[simp] theorem setStream_configured (b i : Word) (s : State) : (setStream b i s).configured = s.configured := rfl
@[simp] theorem setStream_epw (b i : Word) (s : State) : (setStream b i s).epw = s.epw := rfl
@[simp] theorem setStream_numWords (b i : Word) (s : State) : (setStream b i s).numWords = s.numWords := rfl
@[simp] theorem setStream_hsValid (b i : Word) (s : State) : (setStream b i s).hsValid = true := rfl
@[simp] theorem setStream_errSticky (b i : Word) (s : State) : (setStream b i s).errSticky = s.errSticky := rfl
@[simp] theorem setStream_err (b i : Word) (s : State) : (setStream b i s).err = s.err := rfl
@[simp] theorem setStream_errOp (b i : Word) (s : State) : (setStream b i s).errOp = s.errOp := rfl
@[simp] theorem setStream_argIndex (b i : Word) (s : State) : (setStream b i s).argIndex = s.argIndex := rfl
@[simp] theorem setStream_argValue (b i : Word) (s : State) : (setStream b i s).argValue = s.argValue := rfl
@[simp] theorem setStream_digest0 (b i : Word) (s : State) : (setStream b i s).digest0 = s.digest0 := rfl
@[simp] theorem setStream_digest1 (b i : Word) (s : State) : (setStream b i s).digest1 = s.digest1 := rfl
@[simp] theorem setStream_hsBase (b i : Word) (s : State) : (setStream b i s).hsBase = b := rfl
@[simp] theorem setStream_hsIncr (b i : Word) (s : State) : (setStream b i s).hsIncr = i := rfl
@[simp] theorem setStream_result (b i : Word) (s : State) : (setStream b i s).result = s.result := rfl
@[simp] theorem setStream_words (b i : Word) (s : State) : (setStream b i s).words = s.words := rfl
@[simp] theorem setStream_storageEpoch (b i : Word) (s : State) : (setStream b i s).storageEpoch = s.storageEpoch := rfl
@[simp] theorem setStream_pending (b i : Word) (s : State) : (setStream b i s).pending = s.pending := rfl
@[simp] theorem setStream_observed (b i : Word) (s : State) : (setStream b i s).observed = s.observed := rfl

@[simp] theorem filterStream_build (s t : State) : (filterStream s t).build = t.build := rfl
@[simp] theorem filterStream_cfgMode (s t : State) : (filterStream s t).cfgMode = t.cfgMode := rfl
@[simp] theorem filterStream_cfgNumElements (s t : State) : (filterStream s t).cfgNumElements = t.cfgNumElements := rfl
@[simp] theorem filterStream_cfgElementBits (s t : State) : (filterStream s t).cfgElementBits = t.cfgElementBits := rfl
@[simp] theorem filterStream_cfgNumHashes (s t : State) : (filterStream s t).cfgNumHashes = t.cfgNumHashes := rfl
@[simp] theorem filterStream_configured (s t : State) : (filterStream s t).configured = t.configured := rfl
@[simp] theorem filterStream_epw (s t : State) : (filterStream s t).epw = t.epw := rfl
@[simp] theorem filterStream_numWords (s t : State) : (filterStream s t).numWords = t.numWords := rfl
@[simp] theorem filterStream_errSticky (s t : State) : (filterStream s t).errSticky = t.errSticky := rfl
@[simp] theorem filterStream_err (s t : State) : (filterStream s t).err = t.err := rfl
@[simp] theorem filterStream_errOp (s t : State) : (filterStream s t).errOp = t.errOp := rfl
@[simp] theorem filterStream_argIndex (s t : State) : (filterStream s t).argIndex = t.argIndex := rfl
@[simp] theorem filterStream_argValue (s t : State) : (filterStream s t).argValue = t.argValue := rfl
@[simp] theorem filterStream_digest0 (s t : State) : (filterStream s t).digest0 = t.digest0 := rfl
@[simp] theorem filterStream_digest1 (s t : State) : (filterStream s t).digest1 = t.digest1 := rfl
@[simp] theorem filterStream_result (s t : State) : (filterStream s t).result = t.result := rfl
@[simp] theorem filterStream_storageEpoch (s t : State) : (filterStream s t).storageEpoch = t.storageEpoch := rfl
@[simp] theorem filterStream_pending (s t : State) : (filterStream s t).pending = t.pending := rfl
@[simp] theorem filterStream_observed (s t : State) : (filterStream s t).observed = t.observed := rfl
@[simp] theorem filterStream_words (s t : State) : (filterStream s t).words = t.words := rfl
@[simp] theorem filterStream_hsValid (s t : State) : (filterStream s t).hsValid = true := rfl
@[simp] theorem filterStream_hsIncr (s t : State) : (filterStream s t).hsIncr = streamIncr s := rfl
@[simp] theorem filterStream_hsBase (s t : State) : (filterStream s t).hsBase = streamAdvance (streamIncr s) s.numHashes (streamBase s) := rfl

@[simp] theorem construct_build (s : State) : (construct s).build = s.build := rfl
@[simp] theorem construct_cfgMode (s : State) : (construct s).cfgMode = s.cfgMode := rfl
@[simp] theorem construct_cfgNumElements (s : State) : (construct s).cfgNumElements = s.cfgNumElements := rfl
@[simp] theorem construct_cfgElementBits (s : State) : (construct s).cfgElementBits = s.cfgElementBits := rfl
@[simp] theorem construct_cfgNumHashes (s : State) : (construct s).cfgNumHashes = s.cfgNumHashes := rfl
@[simp] theorem construct_configured (s : State) : (construct s).configured = true := rfl
@[simp] theorem construct_epw (s : State) : (construct s).epw = BitVec.ofNat 8 (configEpw s) := rfl
@[simp] theorem construct_numWords (s : State) : (construct s).numWords = BitVec.ofNat 32 (configNumWords s) := rfl
@[simp] theorem construct_hsValid (s : State) : (construct s).hsValid = s.hsValid := rfl
@[simp] theorem construct_errSticky (s : State) : (construct s).errSticky = s.errSticky := rfl
@[simp] theorem construct_err (s : State) : (construct s).err = s.err := rfl
@[simp] theorem construct_errOp (s : State) : (construct s).errOp = s.errOp := rfl
@[simp] theorem construct_argIndex (s : State) : (construct s).argIndex = s.argIndex := rfl
@[simp] theorem construct_argValue (s : State) : (construct s).argValue = s.argValue := rfl
@[simp] theorem construct_digest0 (s : State) : (construct s).digest0 = s.digest0 := rfl
@[simp] theorem construct_digest1 (s : State) : (construct s).digest1 = s.digest1 := rfl
@[simp] theorem construct_hsBase (s : State) : (construct s).hsBase = s.hsBase := rfl
@[simp] theorem construct_hsIncr (s : State) : (construct s).hsIncr = s.hsIncr := rfl
@[simp] theorem construct_result (s : State) : (construct s).result = s.result := rfl
@[simp] theorem construct_words (s : State) : (construct s).words = [] := rfl
@[simp] theorem construct_storageEpoch (s : State) : (construct s).storageEpoch = s.storageEpoch := rfl
@[simp] theorem construct_pending (s : State) : (construct s).pending = s.pending := rfl
@[simp] theorem construct_observed (s : State) : (construct s).observed = s.observed := rfl

@[simp] theorem dropStorage_build (s : State) : (dropStorage s).build = s.build := rfl
@[simp] theorem dropStorage_cfgMode (s : State) : (dropStorage s).cfgMode = s.cfgMode := rfl
@[simp] theorem dropStorage_cfgNumElements (s : State) : (dropStorage s).cfgNumElements = s.cfgNumElements := rfl
@[simp] theorem dropStorage_cfgElementBits (s : State) : (dropStorage s).cfgElementBits = s.cfgElementBits := rfl
@[simp] theorem dropStorage_cfgNumHashes (s : State) : (dropStorage s).cfgNumHashes = s.cfgNumHashes := rfl
@[simp] theorem dropStorage_configured (s : State) : (dropStorage s).configured = false := rfl
@[simp] theorem dropStorage_epw (s : State) : (dropStorage s).epw = 0#8 := rfl
@[simp] theorem dropStorage_numWords (s : State) : (dropStorage s).numWords = 0#32 := rfl
@[simp] theorem dropStorage_hsValid (s : State) : (dropStorage s).hsValid = s.hsValid := rfl
@[simp] theorem dropStorage_errSticky (s : State) : (dropStorage s).errSticky = s.errSticky := rfl
@[simp] theorem dropStorage_err (s : State) : (dropStorage s).err = s.err := rfl
@[simp] theorem dropStorage_errOp (s : State) : (dropStorage s).errOp = s.errOp := rfl
@[simp] theorem dropStorage_argIndex (s : State) : (dropStorage s).argIndex = s.argIndex := rfl
@[simp] theorem dropStorage_argValue (s : State) : (dropStorage s).argValue = s.argValue := rfl
@[simp] theorem dropStorage_digest0 (s : State) : (dropStorage s).digest0 = s.digest0 := rfl
@[simp] theorem dropStorage_digest1 (s : State) : (dropStorage s).digest1 = s.digest1 := rfl
@[simp] theorem dropStorage_hsBase (s : State) : (dropStorage s).hsBase = s.hsBase := rfl
@[simp] theorem dropStorage_hsIncr (s : State) : (dropStorage s).hsIncr = s.hsIncr := rfl
@[simp] theorem dropStorage_result (s : State) : (dropStorage s).result = s.result := rfl
@[simp] theorem dropStorage_words (s : State) : (dropStorage s).words = [] := rfl
@[simp] theorem dropStorage_storageEpoch (s : State) : (dropStorage s).storageEpoch = s.storageEpoch + 1 := rfl
@[simp] theorem dropStorage_pending (s : State) : (dropStorage s).pending = s.pending := rfl
@[simp] theorem dropStorage_observed (s : State) : (dropStorage s).observed = s.observed := rfl

/-- MemWrite changes the storage only. -/
theorem memWrite_eq (s : State) (j : Nat) (v : Word) : memWrite s j v = { s with words := (memWrite s j v).words } := by
  unfold memWrite; split <;> rfl

/-- FieldPut changes the storage only. -/
theorem fieldPut_eq (s : State) (i : Nat) (v : Word) : fieldPut s i v = { s with words := (fieldPut s i v).words } :=
  memWrite_eq ..

@[simp] theorem memWrite_build (s : State) (j : Nat) (v : Word) : (memWrite s j v).build = s.build := by rw [memWrite_eq]
@[simp] theorem memWrite_cfgMode (s : State) (j : Nat) (v : Word) : (memWrite s j v).cfgMode = s.cfgMode := by rw [memWrite_eq]
@[simp] theorem memWrite_cfgNumElements (s : State) (j : Nat) (v : Word) : (memWrite s j v).cfgNumElements = s.cfgNumElements := by rw [memWrite_eq]
@[simp] theorem memWrite_cfgElementBits (s : State) (j : Nat) (v : Word) : (memWrite s j v).cfgElementBits = s.cfgElementBits := by rw [memWrite_eq]
@[simp] theorem memWrite_cfgNumHashes (s : State) (j : Nat) (v : Word) : (memWrite s j v).cfgNumHashes = s.cfgNumHashes := by rw [memWrite_eq]
@[simp] theorem memWrite_configured (s : State) (j : Nat) (v : Word) : (memWrite s j v).configured = s.configured := by rw [memWrite_eq]
@[simp] theorem memWrite_epw (s : State) (j : Nat) (v : Word) : (memWrite s j v).epw = s.epw := by rw [memWrite_eq]
@[simp] theorem memWrite_numWords (s : State) (j : Nat) (v : Word) : (memWrite s j v).numWords = s.numWords := by rw [memWrite_eq]
@[simp] theorem memWrite_hsValid (s : State) (j : Nat) (v : Word) : (memWrite s j v).hsValid = s.hsValid := by rw [memWrite_eq]
@[simp] theorem memWrite_errSticky (s : State) (j : Nat) (v : Word) : (memWrite s j v).errSticky = s.errSticky := by rw [memWrite_eq]
@[simp] theorem memWrite_err (s : State) (j : Nat) (v : Word) : (memWrite s j v).err = s.err := by rw [memWrite_eq]
@[simp] theorem memWrite_errOp (s : State) (j : Nat) (v : Word) : (memWrite s j v).errOp = s.errOp := by rw [memWrite_eq]
@[simp] theorem memWrite_argIndex (s : State) (j : Nat) (v : Word) : (memWrite s j v).argIndex = s.argIndex := by rw [memWrite_eq]
@[simp] theorem memWrite_argValue (s : State) (j : Nat) (v : Word) : (memWrite s j v).argValue = s.argValue := by rw [memWrite_eq]
@[simp] theorem memWrite_digest0 (s : State) (j : Nat) (v : Word) : (memWrite s j v).digest0 = s.digest0 := by rw [memWrite_eq]
@[simp] theorem memWrite_digest1 (s : State) (j : Nat) (v : Word) : (memWrite s j v).digest1 = s.digest1 := by rw [memWrite_eq]
@[simp] theorem memWrite_hsBase (s : State) (j : Nat) (v : Word) : (memWrite s j v).hsBase = s.hsBase := by rw [memWrite_eq]
@[simp] theorem memWrite_hsIncr (s : State) (j : Nat) (v : Word) : (memWrite s j v).hsIncr = s.hsIncr := by rw [memWrite_eq]
@[simp] theorem memWrite_result (s : State) (j : Nat) (v : Word) : (memWrite s j v).result = s.result := by rw [memWrite_eq]
@[simp] theorem memWrite_storageEpoch (s : State) (j : Nat) (v : Word) : (memWrite s j v).storageEpoch = s.storageEpoch := by rw [memWrite_eq]
@[simp] theorem memWrite_pending (s : State) (j : Nat) (v : Word) : (memWrite s j v).pending = s.pending := by rw [memWrite_eq]
@[simp] theorem memWrite_observed (s : State) (j : Nat) (v : Word) : (memWrite s j v).observed = s.observed := by rw [memWrite_eq]

@[simp] theorem fieldPut_build (s : State) (i : Nat) (v : Word) : (fieldPut s i v).build = s.build := by rw [fieldPut_eq]
@[simp] theorem fieldPut_cfgMode (s : State) (i : Nat) (v : Word) : (fieldPut s i v).cfgMode = s.cfgMode := by rw [fieldPut_eq]
@[simp] theorem fieldPut_cfgNumElements (s : State) (i : Nat) (v : Word) : (fieldPut s i v).cfgNumElements = s.cfgNumElements := by rw [fieldPut_eq]
@[simp] theorem fieldPut_cfgElementBits (s : State) (i : Nat) (v : Word) : (fieldPut s i v).cfgElementBits = s.cfgElementBits := by rw [fieldPut_eq]
@[simp] theorem fieldPut_cfgNumHashes (s : State) (i : Nat) (v : Word) : (fieldPut s i v).cfgNumHashes = s.cfgNumHashes := by rw [fieldPut_eq]
@[simp] theorem fieldPut_configured (s : State) (i : Nat) (v : Word) : (fieldPut s i v).configured = s.configured := by rw [fieldPut_eq]
@[simp] theorem fieldPut_epw (s : State) (i : Nat) (v : Word) : (fieldPut s i v).epw = s.epw := by rw [fieldPut_eq]
@[simp] theorem fieldPut_numWords (s : State) (i : Nat) (v : Word) : (fieldPut s i v).numWords = s.numWords := by rw [fieldPut_eq]
@[simp] theorem fieldPut_hsValid (s : State) (i : Nat) (v : Word) : (fieldPut s i v).hsValid = s.hsValid := by rw [fieldPut_eq]
@[simp] theorem fieldPut_errSticky (s : State) (i : Nat) (v : Word) : (fieldPut s i v).errSticky = s.errSticky := by rw [fieldPut_eq]
@[simp] theorem fieldPut_err (s : State) (i : Nat) (v : Word) : (fieldPut s i v).err = s.err := by rw [fieldPut_eq]
@[simp] theorem fieldPut_errOp (s : State) (i : Nat) (v : Word) : (fieldPut s i v).errOp = s.errOp := by rw [fieldPut_eq]
@[simp] theorem fieldPut_argIndex (s : State) (i : Nat) (v : Word) : (fieldPut s i v).argIndex = s.argIndex := by rw [fieldPut_eq]
@[simp] theorem fieldPut_argValue (s : State) (i : Nat) (v : Word) : (fieldPut s i v).argValue = s.argValue := by rw [fieldPut_eq]
@[simp] theorem fieldPut_digest0 (s : State) (i : Nat) (v : Word) : (fieldPut s i v).digest0 = s.digest0 := by rw [fieldPut_eq]
@[simp] theorem fieldPut_digest1 (s : State) (i : Nat) (v : Word) : (fieldPut s i v).digest1 = s.digest1 := by rw [fieldPut_eq]
@[simp] theorem fieldPut_hsBase (s : State) (i : Nat) (v : Word) : (fieldPut s i v).hsBase = s.hsBase := by rw [fieldPut_eq]
@[simp] theorem fieldPut_hsIncr (s : State) (i : Nat) (v : Word) : (fieldPut s i v).hsIncr = s.hsIncr := by rw [fieldPut_eq]
@[simp] theorem fieldPut_result (s : State) (i : Nat) (v : Word) : (fieldPut s i v).result = s.result := by rw [fieldPut_eq]
@[simp] theorem fieldPut_storageEpoch (s : State) (i : Nat) (v : Word) : (fieldPut s i v).storageEpoch = s.storageEpoch := by rw [fieldPut_eq]
@[simp] theorem fieldPut_pending (s : State) (i : Nat) (v : Word) : (fieldPut s i v).pending = s.pending := by rw [fieldPut_eq]
@[simp] theorem fieldPut_observed (s : State) (i : Nat) (v : Word) : (fieldPut s i v).observed = s.observed := by rw [fieldPut_eq]

/-- Two states that agree on the storage, what is in use, the build and the epoch read alike. -/
theorem memRead_congr {s t : State} (hb : t.build = s.build) (hc : t.configured = s.configured)
    (hn : t.numWords = s.numWords) (hw : t.words = s.words) (he : t.storageEpoch = s.storageEpoch) (j : Nat) :
    memRead t j = memRead s j := by
  simp only [memRead, State.inUse, State.wordMask, State.wordBits, hb, hc, hn, hw, he]
  rfl

/-- Two states that read alike and have the same geometry hold the same counters. -/
theorem fieldGet_congr {s t : State} (hb : t.build = s.build) (hw : t.cfgElementBits = s.cfgElementBits)
    (hp : t.epw = s.epw) (hr : ∀ j, memRead t j = memRead s j) (i : Nat) : fieldGet t i = fieldGet s i := by
  simp only [fieldGet, wordIndex, fieldLsb, slotInWord, State.fieldMask, State.wordBits, State.elementBits, hb, hw, hp, hr]

@[simp] theorem memRead_raiseError (op : Byte) (e : ErrorCode) (s : State) (j : Nat) : memRead (raiseError op e s) j = memRead s j := rfl
@[simp] theorem fieldGet_raiseError (op : Byte) (e : ErrorCode) (s : State) (j : Nat) : fieldGet (raiseError op e s) j = fieldGet s j := rfl
@[simp] theorem memRead_complete (s : State) (j : Nat) : memRead (complete s) j = memRead s j := rfl
@[simp] theorem fieldGet_complete (s : State) (j : Nat) : fieldGet (complete s) j = fieldGet s j := rfl
@[simp] theorem memRead_setResult (v : Word) (s : State) (j : Nat) : memRead (setResult v s) j = memRead s j := rfl
@[simp] theorem fieldGet_setResult (v : Word) (s : State) (j : Nat) : fieldGet (setResult v s) j = fieldGet s j := rfl
@[simp] theorem memRead_setStream (b i : Word) (s : State) (j : Nat) : memRead (setStream b i s) j = memRead s j := rfl
@[simp] theorem fieldGet_setStream (b i : Word) (s : State) (j : Nat) : fieldGet (setStream b i s) j = fieldGet s j := rfl
@[simp] theorem memRead_filterStream (s t : State) (j : Nat) : memRead (filterStream s t) j = memRead t j := rfl
@[simp] theorem fieldGet_filterStream (s t : State) (j : Nat) : fieldGet (filterStream s t) j = fieldGet t j := rfl

end Sys2Proof.Machine
end

