-- ==== Sys2Proof/Laws/Memory.lean ====
section
/-! SUPPORT. The laws of the storage list and of MemRead and MemWrite: a read after a write to the same place gives the value
written, a write leaves every other place alone, and every operation keeps the canonical form. -/

namespace Sys2Proof.Machine

theorem Memory.read_of_not_listed {ws : List Cell} {j : Nat} (h : ∀ c ∈ ws, c.1 ≠ j) : Memory.read ws j = 0#64 := by
  induction ws with
  | nil => rfl
  | cons c r ih =>
    obtain ⟨k, w⟩ := c
    have hk : k ≠ j := h (k, w) (by simp)
    simp only [Memory.read, hk, if_false]
    exact ih fun c hc => h c (List.mem_cons_of_mem _ hc)

theorem Memory.mem_erase {ws : List Cell} {j : Nat} {c : Cell} : c ∈ Memory.erase ws j ↔ c ∈ ws ∧ c.1 ≠ j := by
  simp [Memory.erase]

theorem Memory.read_erase_self (ws : List Cell) (j : Nat) : Memory.read (Memory.erase ws j) j = 0#64 :=
  Memory.read_of_not_listed fun _ hc => (Memory.mem_erase.1 hc).2

theorem Memory.read_erase_of_ne (ws : List Cell) {j k : Nat} (h : k ≠ j) :
    Memory.read (Memory.erase ws j) k = Memory.read ws k := by
  induction ws with
  | nil => rfl
  | cons c r ih =>
    obtain ⟨m, w⟩ := c
    by_cases hm : m = j
    · subst hm
      have : Memory.erase ((m, w) :: r) m = Memory.erase r m := by simp [Memory.erase]
      rw [this, ih]
      simp [Memory.read, Ne.symm h]
    · have : Memory.erase ((m, w) :: r) j = (m, w) :: Memory.erase r j := by simp [Memory.erase, hm]
      rw [this]
      simp [Memory.read, ih]

theorem Memory.mem_insert {ws : List Cell} {j : Nat} {v : Word} {c : Cell} :
    c ∈ Memory.insert ws j v ↔ c = (j, v) ∨ c ∈ ws := by
  induction ws with
  | nil => simp [Memory.insert]
  | cons d r ih =>
    obtain ⟨k, w⟩ := d
    unfold Memory.insert
    split <;> simp [ih]
    tauto

theorem Memory.read_insert_self {ws : List Cell} {j : Nat} (v : Word) (h : ∀ c ∈ ws, c.1 ≠ j) :
    Memory.read (Memory.insert ws j v) j = v := by
  induction ws with
  | nil => simp [Memory.insert, Memory.read]
  | cons d r ih =>
    obtain ⟨k, w⟩ := d
    have hk : k ≠ j := h (k, w) (by simp)
    unfold Memory.insert
    split
    · simp [Memory.read]
    · simp [Memory.read, hk, ih fun c hc => h c (List.mem_cons_of_mem _ hc)]

theorem Memory.read_insert_of_ne (ws : List Cell) {j k : Nat} (v : Word) (h : k ≠ j) :
    Memory.read (Memory.insert ws j v) k = Memory.read ws k := by
  induction ws with
  | nil => simp [Memory.insert, Memory.read, Ne.symm h]
  | cons d r ih =>
    obtain ⟨m, w⟩ := d
    unfold Memory.insert
    split <;> simp [Memory.read, Ne.symm h, ih]

/-- A read after a write to the same place gives the value written. -/
@[simp] theorem Memory.read_write_self (ws : List Cell) (j : Nat) (v : Word) :
    Memory.read (Memory.write ws j v) j = v := by
  unfold Memory.write
  split
  · simp_all [Memory.read_erase_self]
  · exact Memory.read_insert_self v fun _ hc => (Memory.mem_erase.1 hc).2

/-- A write leaves every other place alone. -/
theorem Memory.read_write_of_ne (ws : List Cell) {j k : Nat} (v : Word) (h : k ≠ j) :
    Memory.read (Memory.write ws j v) k = Memory.read ws k := by
  unfold Memory.write
  split
  · exact Memory.read_erase_of_ne ws h
  · rw [Memory.read_insert_of_ne _ _ h, Memory.read_erase_of_ne ws h]

/-- What a write lists: the word written, unless it is 0, and the other words listed before. -/
theorem Memory.mem_write {ws : List Cell} {j : Nat} {v : Word} {c : Cell} :
    c ∈ Memory.write ws j v ↔ (c = (j, v) ∧ v ≠ 0#64) ∨ (c ∈ ws ∧ c.1 ≠ j) := by
  unfold Memory.write
  split <;> simp_all [Memory.mem_insert, Memory.mem_erase]

theorem Memory.wf_nil : Memory.wf [] := by simp [Memory.wf]

theorem Memory.rising_erase {ws : List Cell} (j : Nat) (h : (ws.map Prod.fst).Pairwise (· < ·)) :
    ((Memory.erase ws j).map Prod.fst).Pairwise (· < ·) :=
  h.sublist (List.Sublist.map _ List.filter_sublist)

theorem Memory.rising_insert {ws : List Cell} {j : Nat} (v : Word) (h : (ws.map Prod.fst).Pairwise (· < ·))
    (hj : ∀ c ∈ ws, c.1 ≠ j) : ((Memory.insert ws j v).map Prod.fst).Pairwise (· < ·) := by
  induction ws with
  | nil => simp [Memory.insert]
  | cons d r ih =>
    obtain ⟨k, w⟩ := d
    have hk : k ≠ j := hj (k, w) (by simp)
    rw [List.map_cons, List.pairwise_cons] at h
    unfold Memory.insert
    split
    · rename_i hlt
      rw [List.map_cons, List.pairwise_cons, List.map_cons, List.pairwise_cons]
      refine ⟨?_, h⟩
      intro m hm
      rcases List.mem_cons.1 hm with rfl | hm
      · exact hlt
      · exact Nat.lt_trans hlt (h.1 m hm)
    · rename_i hlt
      rw [List.map_cons, List.pairwise_cons]
      refine ⟨?_, ih h.2 fun c hc => hj c (List.mem_cons_of_mem _ hc)⟩
      intro m hm
      obtain ⟨c, hc, rfl⟩ := List.mem_map.1 hm
      rcases Memory.mem_insert.1 hc with rfl | hc
      · show k < j
        omega
      · exact h.1 _ (List.mem_map_of_mem hc)

/-- Every write keeps the canonical form. -/
theorem Memory.wf_write {ws : List Cell} (j : Nat) (v : Word) (h : Memory.wf ws) : Memory.wf (Memory.write ws j v) := by
  refine ⟨?_, ?_⟩
  · unfold Memory.write
    split
    · exact Memory.rising_erase j h.1
    · exact Memory.rising_insert v (Memory.rising_erase j h.1) fun _ hc => (Memory.mem_erase.1 hc).2
  · intro c hc
    rcases Memory.mem_write.1 hc with ⟨rfl, hv⟩ | ⟨hc, -⟩
    · exact hv
    · exact h.2 c hc

/-- MemWrite keeps the canonical form. -/
theorem memWrite_keeps_wf {s : State} (j : Nat) (v : Word) (h : Memory.wf s.words) : Memory.wf (memWrite s j v).words := by
  unfold memWrite
  split
  · exact Memory.wf_write _ _ h
  · exact h

/-- FieldPut keeps the canonical form. -/
theorem fieldPut_keeps_wf {s : State} (i : Nat) (v : Word) (h : Memory.wf s.words) : Memory.wf (fieldPut s i v).words :=
  memWrite_keeps_wf _ _ h

theorem construct_wf (s : State) : Memory.wf (construct s).words := Memory.wf_nil

theorem dropStorage_wf (s : State) : Memory.wf (dropStorage s).words := Memory.wf_nil

theorem resetOf_wf (b : Build) : Memory.wf (State.resetOf b).words := Memory.wf_nil

theorem reset_wf : Memory.wf State.reset.words := Memory.wf_nil

/-- A listed word of a canonical list is what a read gives. -/
theorem Memory.read_of_mem {ws : List Cell} (h : Memory.wf ws) {c : Cell} (hc : c ∈ ws) : Memory.read ws c.1 = c.2 := by
  replace h := h.1
  revert hc
  induction ws with
  | nil => simp
  | cons d r ih =>
    obtain ⟨k, w⟩ := d
    intro hc
    rw [List.map_cons, List.pairwise_cons] at h
    rcases List.mem_cons.1 hc with rfl | hc
    · simp [Memory.read]
    · have : k < c.1 := h.1 _ (List.mem_map_of_mem hc)
      simp [Memory.read, Nat.ne_of_lt this, ih h.2 hc]

/-- What a read gives is 0 or listed. -/
theorem Memory.read_eq_zero_or_mem (ws : List Cell) (j : Nat) :
    Memory.read ws j = 0#64 ∨ (j, Memory.read ws j) ∈ ws := by
  induction ws with
  | nil => exact .inl rfl
  | cons d r ih =>
    obtain ⟨k, w⟩ := d
    by_cases h : k = j
    · subst h; simp [Memory.read]
    · rcases ih with ih | ih
      · exact .inl (by simp [Memory.read, h, ih])
      · exact .inr (by simp [Memory.read, h, ih])

/-- Two canonical lists that read alike are equal. -/
theorem Memory.ext {ws vs : List Cell} (hw : Memory.wf ws) (hv : Memory.wf vs)
    (h : ∀ j, Memory.read ws j = Memory.read vs j) : ws = vs := by
  have key : ∀ {xs ys : List Cell}, Memory.wf xs → (∀ j, Memory.read xs j = Memory.read ys j) → ∀ c ∈ xs, c ∈ ys := by
    intro xs ys hx hr c hc
    have h1 := Memory.read_of_mem hx hc
    rcases Memory.read_eq_zero_or_mem ys c.1 with h2 | h2
    · exact absurd (h1.symm.trans ((hr c.1).trans h2)) (hx.2 c hc)
    · rw [← hr, h1] at h2; exact h2
  have sorted : ∀ {xs : List Cell}, Memory.wf xs → xs.Pairwise (fun a b => a.1 < b.1) :=
    fun h => List.pairwise_map.1 h.1
  have nodup : ∀ {xs : List Cell}, Memory.wf xs → xs.Nodup := fun h =>
    (sorted h).imp (S := fun a b => a ≠ b) fun {a b} hab hne => Nat.lt_irrefl b.1 (hne ▸ hab)
  have perm : ws.Perm vs := (List.perm_ext_iff_of_nodup (nodup hw) (nodup hv)).2 fun c =>
    ⟨key hw h c, key hv (fun j => (h j).symm) c⟩
  exact perm.eq_of_pairwise (fun a b _ _ hab hba => absurd hab (Nat.lt_asymm hba)) (sorted hw) (sorted hv)

@[simp] theorem memWrite_inUse (s : State) (j k : Nat) (v : Word) : (memWrite s j v).inUse k = s.inUse k := by
  simp [State.inUse]

/-- A word read has S bits. -/
theorem memRead_and_wordMask (s : State) (j : Nat) : memRead s j &&& s.wordMask = memRead s j := by
  unfold memRead
  split <;> simp [BitVec.and_assoc]

/-- MemRead after MemWrite of a word in use. -/
theorem memRead_memWrite (s : State) (j k : Nat) (v : Word) (hj : s.inUse j = true) :
    memRead (memWrite s j v) k = if k = j then v &&& s.wordMask else memRead s k := by
  have hm : (memWrite s j v).wordMask = s.wordMask := by simp [State.wordMask, State.wordBits]
  have hw : (memWrite s j v).words = Memory.write s.words j (v &&& s.wordMask) := by simp [memWrite, hj]
  by_cases hk : k = j
  · subst hk
    simp [memRead, hj, hm, hw, BitVec.and_assoc]
  · rw [if_neg hk]
    simp only [memRead, memWrite_inUse, hm, hw, memWrite_storageEpoch, Memory.read_write_of_ne _ _ hk]

/-- MemWrite leaves every other word alone, in every state. -/
theorem memRead_memWrite_of_ne (s : State) {j k : Nat} (v : Word) (hk : k ≠ j) :
    memRead (memWrite s j v) k = memRead s k := by
  by_cases hj : s.inUse j = true
  · rw [memRead_memWrite s j k v hj, if_neg hk]
  · unfold memWrite
    rw [if_neg hj]

/-- FieldPut leaves every word but the counter's own alone. -/
theorem memRead_fieldPut_of_ne (s : State) {i k : Nat} (v : Word) (hk : k ≠ wordIndex s i) :
    memRead (fieldPut s i v) k = memRead s k :=
  memRead_memWrite_of_ne s _ hk

end Sys2Proof.Machine
end

