-- ==== Sys2Proof/Laws/Field.lean ====
section
/-! SUPPORT. The laws of the packed counters: where a field lies, what FieldGet reads and FieldPut replaces, bit by bit
(42_counter_vector.md R171 to R174, R183, R184). -/

namespace Sys2Proof.Machine

/-- The geometry of a configured state (10_state.md R46 d, R43). -/
structure Layout (s : State) : Prop where
  widthPos : 1 ≤ s.elementBits
  widthLe : s.elementBits ≤ s.wordBits
  epwEq : s.epw.toNat = s.wordBits / s.elementBits
  numWordsEq : s.numWords.toNat = ceilDiv s.numElements s.epw.toNat
  capacity : s.numWords.toNat ≤ s.build.maxWords.toNat
  isConfigured : s.configured = true

theorem StorageWidth.bits_pos (w : StorageWidth) : 8 ≤ w.bits := by cases w <;> decide

theorem StorageWidth.bits_le (w : StorageWidth) : w.bits ≤ 64 := by cases w <;> decide

theorem wordBits_le (s : State) : s.wordBits ≤ 64 := StorageWidth.bits_le _

theorem wordBits_ge (s : State) : 8 ≤ s.wordBits := StorageWidth.bits_pos _

/-- What a legal width is: at least 1, at most S. -/
theorem widthLegal_bounds {s : State} (h : widthLegal s = true) : 1 ≤ s.elementBits ∧ s.elementBits ≤ s.wordBits := by
  have := wordBits_ge s
  unfold widthLegal at h
  split at h <;> simp at h <;> omega

theorem inv_parts {s : State} (h : s.inv = true) :
    s.build.legal = true ∧ geometryOk s = true ∧ storageOk s = true ∧ s.err.toNat ≤ 10 := by
  simpa [State.inv, and_assoc] using h

/-- The invariant gives a configured state its layout. -/
theorem Layout.of_inv {s : State} (h : s.inv = true) (hc : s.configured = true) : Layout s := by
  have hg := (inv_parts h).2.1
  simp only [geometryOk, hc, if_true, configurationOk, Bool.and_eq_true, decide_eq_true_eq] at hg
  obtain ⟨hw, he, hn, hm, -⟩ := hg
  have hb := widthLegal_bounds hw
  exact ⟨hb.1, hb.2, he, by rw [he]; exact hn, by omega, hc⟩

theorem Layout.epwPos {s : State} (h : Layout s) : 1 ≤ s.epw.toNat := by
  rw [h.epwEq]; exact (Nat.one_le_div_iff h.widthPos).2 h.widthLe

/-- The fields of a word fit into it. -/
theorem Layout.fieldsFit {s : State} (h : Layout s) : s.elementBits * s.epw.toNat ≤ s.wordBits := by
  rw [h.epwEq]; exact Nat.mul_div_le _ _

theorem Layout.slotLt {s : State} (h : Layout s) (i : Nat) : slotInWord s i < s.epw.toNat :=
  Nat.mod_lt _ h.epwPos

/-- A field lies inside its word, its top bit W·slot below the word's (42_counter_vector.md R171). -/
theorem Layout.lsbAdd {s : State} (h : Layout s) (i : Nat) :
    fieldLsb s i + s.elementBits * (slotInWord s i + 1) = s.wordBits := by
  have h1 := h.slotLt i
  have h2 : s.elementBits * (slotInWord s i + 1) ≤ s.elementBits * s.epw.toNat := Nat.mul_le_mul_left _ h1
  have h3 := h.fieldsFit
  unfold fieldLsb
  omega

theorem Layout.lsbLe {s : State} (h : Layout s) (i : Nat) : fieldLsb s i + s.elementBits ≤ s.wordBits := by
  have := h.lsbAdd i
  rw [Nat.mul_add, Nat.mul_one] at this
  omega

theorem div_lt_ceilDiv {i n b : Nat} (hb : 1 ≤ b) (h : i < n) : i / b < ceilDiv n b := by
  unfold ceilDiv
  have h1 : b * (i / b) ≤ i := Nat.mul_div_le i b
  apply (Nat.le_div_iff_mul_le hb).2
  rw [Nat.succ_mul, Nat.mul_comm]
  omega

/-- A counter below N lies in a word in use (10_state.md R43). -/
theorem Layout.wordLt {s : State} (h : Layout s) {i : Nat} (hi : i < s.numElements) :
    wordIndex s i < s.numWords.toNat := by
  rw [h.numWordsEq]; exact div_lt_ceilDiv h.epwPos hi

theorem Layout.inUse {s : State} (h : Layout s) {i : Nat} (hi : i < s.numElements) :
    s.inUse (wordIndex s i) = true := by
  simp [State.inUse, h.isConfigured, h.wordLt hi]

theorem Layout.exists {s : State} (h : Layout s) {i : Nat} (hi : i < s.numElements) :
    wordIndex s i < s.build.maxWords.toNat := Nat.lt_of_lt_of_le (h.wordLt hi) h.capacity

theorem getLsbD_ones (n b : Nat) : (BitVec.ofNat 64 (2 ^ n - 1)).getLsbD b = (decide (b < 64) && decide (b < n)) := by
  simp [BitVec.getLsbD_ofNat, Nat.testBit_two_pow_sub_one]

@[simp] theorem getLsbD_fieldMask (s : State) (b : Nat) :
    s.fieldMask.getLsbD b = (decide (b < 64) && decide (b < s.elementBits)) := getLsbD_ones _ _

@[simp] theorem getLsbD_wordMask (s : State) (b : Nat) :
    s.wordMask.getLsbD b = (decide (b < 64) && decide (b < s.wordBits)) := getLsbD_ones _ _

/-- FieldGet, bit by bit (42_counter_vector.md R173). -/
theorem getLsbD_fieldGet (s : State) (i b : Nat) : (fieldGet s i).getLsbD b =
    ((memRead s (wordIndex s i)).getLsbD (fieldLsb s i + b) && (decide (b < 64) && decide (b < s.elementBits))) := by
  simp [fieldGet]

/-- FieldGet as arithmetic: the word divided by 2^lsb, modulo 2^W. -/
theorem toNat_fieldGet (s : State) (i : Nat) : (fieldGet s i).toNat =
    (memRead s (wordIndex s i)).toNat / 2 ^ fieldLsb s i % 2 ^ s.elementBits := by
  apply Nat.eq_of_testBit_eq
  intro b
  have := getLsbD_fieldGet s i b
  simp only [BitVec.getLsbD] at this
  rw [this, Nat.testBit_mod_two_pow, Nat.testBit_div_two_pow, Nat.add_comm b]
  by_cases hb : b < 64
  · simp [hb, Bool.and_comm]
  · have : (memRead s (wordIndex s i)).toNat.testBit (fieldLsb s i + b) = false := by
      apply Nat.testBit_lt_two_pow
      exact Nat.lt_of_lt_of_le (BitVec.isLt _) (Nat.pow_le_pow_right (by decide) (by omega))
    simp [this]

theorem toNat_fieldMask {s : State} (h : s.elementBits ≤ 64) : s.fieldMask.toNat = 2 ^ s.elementBits - 1 := by
  have := Nat.pow_le_pow_right (n := 2) (by decide) h
  have := Nat.two_pow_pos s.elementBits
  simp only [State.fieldMask, BitVec.toNat_ofNat]
  apply Nat.mod_eq_of_lt
  omega

theorem Layout.widthLe64 {s : State} (h : Layout s) : s.elementBits ≤ 64 := Nat.le_trans h.widthLe (wordBits_le s)

/-- Every counter value lies in [0, MAXV] (10_state.md R46 a), in every state. -/
theorem toNat_fieldGet_lt (s : State) (i : Nat) : (fieldGet s i).toNat < 2 ^ s.elementBits := by
  rw [toNat_fieldGet]; exact Nat.mod_lt _ (Nat.two_pow_pos _)

/-- A value of at most W bits has no bit above. -/
theorem getLsbD_of_lt {v : Word} {n b : Nat} (h : v.toNat < 2 ^ n) (hb : n ≤ b) : v.getLsbD b = false :=
  Nat.testBit_lt_two_pow (Nat.lt_of_lt_of_le h (Nat.pow_le_pow_right (by decide) hb))

/-- replaceField, bit by bit (42_counter_vector.md R174). -/
theorem getLsbD_replaceField {s : State} (i : Nat) (w : Word) {v : Word} (hv : v.toNat < 2 ^ s.elementBits)
    {b : Nat} (hb : b < 64) : (replaceField s i w v).getLsbD b =
      if fieldLsb s i ≤ b ∧ b < fieldLsb s i + s.elementBits then v.getLsbD (b - fieldLsb s i) else w.getLsbD b := by
  simp only [replaceField, BitVec.getLsbD_or, BitVec.getLsbD_and, BitVec.getLsbD_not, BitVec.getLsbD_shiftLeft,
    getLsbD_fieldMask]
  by_cases h1 : b < fieldLsb s i
  · simp [h1, hb, Nat.not_le.2 h1]
  · by_cases h2 : b < fieldLsb s i + s.elementBits
    · have h3 : b - fieldLsb s i < s.elementBits := by omega
      have h4 : b - fieldLsb s i < 64 := by omega
      simp [h1, h2, h3, h4, hb, Nat.not_lt.1 h1]
    · have h3 : s.elementBits ≤ b - fieldLsb s i := by omega
      have h4 := getLsbD_of_lt hv h3
      simp [h1, h2, hb, h4, Nat.not_lt.2 h3]

/-- FieldPut, bit by bit (42_counter_vector.md R174): no other word, and no bit of the word outside the field, changes. -/
theorem getLsbD_memRead_fieldPut {s : State} (h : Layout s) {i : Nat} (hi : i < s.numElements) {v : Word}
    (hv : v.toNat < 2 ^ s.elementBits) (k b : Nat) :
    (memRead (fieldPut s i v) k).getLsbD b =
      if k = wordIndex s i ∧ fieldLsb s i ≤ b ∧ b < fieldLsb s i + s.elementBits then v.getLsbD (b - fieldLsb s i)
      else (memRead s k).getLsbD b := by
  by_cases hk : k = wordIndex s i
  · subst hk
    unfold fieldPut
    rw [memRead_memWrite _ _ _ _ (h.inUse hi), if_pos rfl]
    have hl := h.lsbLe i
    have hs := wordBits_le s
    by_cases hb : b < 64
    · rw [BitVec.getLsbD_and, getLsbD_replaceField i _ hv hb, getLsbD_wordMask]
      by_cases hin : fieldLsb s i ≤ b ∧ b < fieldLsb s i + s.elementBits
      · have : b < s.wordBits := by omega
        simp [hin, hb, this]
      · have hm := congrArg (fun w => w.getLsbD b) (memRead_and_wordMask s (wordIndex s i))
        simp only [BitVec.getLsbD_and, getLsbD_wordMask] at hm
        rw [if_neg hin, if_neg (fun hh => hin hh.2), hm]
    · rw [BitVec.getLsbD_of_ge _ _ (by omega), if_neg (by omega), BitVec.getLsbD_of_ge _ _ (by omega)]
  · rw [if_neg (fun hh => hk hh.1), memRead_fieldPut_of_ne s v hk]

@[simp] theorem wordIndex_fieldPut (s : State) (i j : Nat) (v : Word) : wordIndex (fieldPut s i v) j = wordIndex s j := by
  simp [wordIndex]

@[simp] theorem fieldLsb_fieldPut (s : State) (i j : Nat) (v : Word) : fieldLsb (fieldPut s i v) j = fieldLsb s j := by
  simp [fieldLsb, slotInWord, State.wordBits, State.elementBits]

@[simp] theorem elementBits_fieldPut (s : State) (i : Nat) (v : Word) : (fieldPut s i v).elementBits = s.elementBits := by
  simp [State.elementBits]

@[simp] theorem numElements_fieldPut (s : State) (i : Nat) (v : Word) : (fieldPut s i v).numElements = s.numElements := by
  simp [State.numElements]

@[simp] theorem mode_fieldPut (s : State) (i : Nat) (v : Word) : (fieldPut s i v).mode = s.mode := by
  simp [State.mode]

/-- FieldPut keeps the layout. -/
theorem Layout.fieldPut {s : State} (h : Layout s) (i : Nat) (v : Word) : Layout (fieldPut s i v) := by
  obtain ⟨h1, h2, h3, h4, h5, h6⟩ := h
  constructor <;> simpa [State.elementBits, State.wordBits, State.numElements]

/-- A counter holds what was put there (42_counter_vector.md R183). -/
theorem fieldGet_fieldPut_self {s : State} (h : Layout s) {i : Nat} (hi : i < s.numElements) {v : Word}
    (hv : v.toNat < 2 ^ s.elementBits) : fieldGet (fieldPut s i v) i = v := by
  apply BitVec.eq_of_getLsbD_eq
  intro b hb
  rw [getLsbD_fieldGet, wordIndex_fieldPut, fieldLsb_fieldPut, elementBits_fieldPut,
    getLsbD_memRead_fieldPut h hi hv]
  by_cases hw : b < s.elementBits
  · rw [if_pos ⟨rfl, Nat.le_add_right _ _, Nat.add_lt_add_left hw _⟩, Nat.add_sub_cancel_left]
    simp [hb, hw]
  · simp [hw, getLsbD_of_lt hv (Nat.not_lt.1 hw)]

/-- Two counters in different slots of one word share no bit. -/
theorem Layout.disjoint {s : State} (h : Layout s) {i j : Nat} (hne : j ≠ i) (hw : wordIndex s j = wordIndex s i) :
    fieldLsb s j + s.elementBits ≤ fieldLsb s i ∨ fieldLsb s i + s.elementBits ≤ fieldLsb s j := by
  have hslot : slotInWord s j ≠ slotInWord s i := by
    intro he
    apply hne
    rw [← Nat.div_add_mod j s.epw.toNat, ← Nat.div_add_mod i s.epw.toNat]
    unfold slotInWord at he
    unfold wordIndex at hw
    rw [he, hw]
  have h1 := h.lsbAdd i
  have h2 := h.lsbAdd j
  rcases Nat.lt_or_gt_of_ne hslot with hlt | hlt
  · have := Nat.mul_le_mul_left s.elementBits (Nat.succ_le_of_lt hlt)
    simp only [Nat.mul_add, Nat.mul_one, Nat.succ_eq_add_one] at *
    omega
  · have := Nat.mul_le_mul_left s.elementBits (Nat.succ_le_of_lt hlt)
    simp only [Nat.mul_add, Nat.mul_one, Nat.succ_eq_add_one] at *
    omega

/-- FieldPut changes no other counter (42_counter_vector.md R184). -/
theorem fieldGet_fieldPut_of_ne {s : State} (h : Layout s) {i j : Nat} (hi : i < s.numElements) {v : Word}
    (hv : v.toNat < 2 ^ s.elementBits) (hne : j ≠ i) : fieldGet (fieldPut s i v) j = fieldGet s j := by
  apply BitVec.eq_of_getLsbD_eq
  intro b hb
  rw [getLsbD_fieldGet, getLsbD_fieldGet, wordIndex_fieldPut, fieldLsb_fieldPut, elementBits_fieldPut,
    getLsbD_memRead_fieldPut h hi hv]
  by_cases hw : b < s.elementBits
  · by_cases hk : wordIndex s j = wordIndex s i
    · rw [if_neg]
      have := h.disjoint hne hk
      omega
    · rw [if_neg fun hh => hk hh.1]
  · simp [hw]

end Sys2Proof.Machine
end

