-- ==== Sys2Proof/Laws/Stream.lean ====
section
/-! SUPPORT. The laws of the hash stream: its closed form and the slot indices it gives (41_hash_stream.md R154;
43_filter.md R211, R218). -/

namespace Sys2Proof.Machine

/-- The base after k values is base + k·inc modulo 2^64. -/
theorem streamAdvance_eq (inc : Word) (k : Nat) (b : Word) :
    streamAdvance inc k b = b + BitVec.ofNat 64 k * inc := by
  induction k generalizing b with
  | zero => simp [streamAdvance]
  | succ k ih =>
    rw [streamAdvance, ih, BitVec.ofNat_add, BitVec.add_mul, BitVec.add_assoc, BitVec.add_comm inc]
    simp

theorem streamAdvance_succ (inc : Word) (k : Nat) (b : Word) :
    streamAdvance inc (k + 1) b = streamAdvance inc k b + inc := by
  rw [streamAdvance_eq, streamAdvance_eq, BitVec.ofNat_add, BitVec.add_mul, BitVec.add_assoc]
  simp

/-- The value of a stream after k additions, as a number. -/
theorem toNat_streamAdvance (inc : Word) (k : Nat) (b : Word) :
    (streamAdvance inc k b).toNat = (b.toNat + k * inc.toNat) % 2 ^ 64 := by
  rw [streamAdvance_eq, BitVec.toNat_add, BitVec.toNat_mul, BitVec.toNat_ofNat, Nat.add_mod_mod, Nat.add_mod,
    Nat.mod_mul_mod, ← Nat.add_mod]

/-- The slot indices, one by one (43_filter.md R211). -/
theorem slotSequence_eq (n : Nat) (inc : Word) (k : Nat) (b : Word) :
    slotSequence n inc k b = (List.range k).map fun t => (b.toNat + t * inc.toNat) % 2 ^ 64 % n := by
  induction k generalizing b with
  | zero => rfl
  | succ k ih =>
    rw [slotSequence, ih, List.range_succ_eq_map, List.map_cons, List.map_map]
    congr 1
    · rw [Nat.zero_mul, Nat.add_zero, Nat.mod_eq_of_lt b.isLt]
    · apply List.map_congr_left
      intro t _
      show _ = (b.toNat + (t + 1) * inc.toNat) % 2 ^ 64 % n
      rw [BitVec.toNat_add, Nat.succ_mul, Nat.mod_add_mod]
      congr 2
      omega

theorem length_slotSequence (n : Nat) (inc : Word) (k : Nat) (b : Word) : (slotSequence n inc k b).length = k := by
  simp [slotSequence_eq]

/-- Every slot index is below N (43_filter.md R218). -/
theorem slotSequence_lt {n : Nat} (hn : 0 < n) {inc : Word} {k : Nat} {b : Word} {i : Nat}
    (h : i ∈ slotSequence n inc k b) : i < n := by
  rw [slotSequence_eq] at h
  obtain ⟨t, -, rfl⟩ := List.mem_map.1 h
  exact Nat.mod_lt _ hn

theorem filterSlots_lt {s : State} (hn : 0 < s.numElements) {i : Nat} (h : i ∈ filterSlots s) : i < s.numElements :=
  slotSequence_lt hn h

theorem filterSlots_congr {s t : State} (hn : t.cfgNumElements = s.cfgNumElements) (hk : t.cfgNumHashes = s.cfgNumHashes)
    (h0 : t.digest0 = s.digest0) (h1 : t.digest1 = s.digest1) : filterSlots t = filterSlots s := by
  simp only [filterSlots, State.numElements, State.numHashes, streamIncr, streamBase, hn, hk, h0, h1]

end Sys2Proof.Machine
end

