-- ==== Sys2Proof/Laws/Slots.lean ====
section
/-! SUPPORT. What a fold of single-counter updates does: each counter is updated once for every time its index occurs, and
nothing else changes (43_filter.md R214, R215, R217). -/

namespace Sys2Proof.Machine

/-- Counter i updated by `f`: the shape of a step of FLT_ADD and of FLT_REMOVE. -/
def updateSlot (f : Word → Word) (s : State) (i : Nat) : State := fieldPut s i (f (fieldGet s i))

/-- The update of FLT_ADD in a mode (43_filter.md R214). -/
def addUpdate (m : Mode) : Word → Word := if m = .bitset then fun _ => 1#64 else saturatingInc 15#64

theorem addSlot_eq (s : State) (i : Nat) : addSlot s i = updateSlot (addUpdate s.mode) s i := by
  unfold addSlot updateSlot addUpdate
  split <;> rfl

theorem removeSlot_eq : removeSlot = updateSlot saturatingDec := rfl

/-- A fold of updates changes the storage only. -/
theorem foldl_updateSlot_eq (f : Word → Word) (l : List Nat) (s : State) :
    l.foldl (updateSlot f) s = { s with words := (l.foldl (updateSlot f) s).words } := by
  induction l generalizing s with
  | nil => rfl
  | cons i l ih =>
    rw [List.foldl_cons]
    conv_lhs => rw [ih]
    have : updateSlot f s i = { s with words := (updateSlot f s i).words } := fieldPut_eq ..
    rw [this]

@[simp] theorem updateSlot_build (f : Word → Word) (s : State) (i : Nat) : (updateSlot f s i).build = s.build := fieldPut_build ..
@[simp] theorem foldl_updateSlot_build (f : Word → Word) (l : List Nat) (s : State) : (l.foldl (updateSlot f) s).build = s.build := by rw [foldl_updateSlot_eq]
@[simp] theorem updateSlot_cfgMode (f : Word → Word) (s : State) (i : Nat) : (updateSlot f s i).cfgMode = s.cfgMode := fieldPut_cfgMode ..
@[simp] theorem foldl_updateSlot_cfgMode (f : Word → Word) (l : List Nat) (s : State) : (l.foldl (updateSlot f) s).cfgMode = s.cfgMode := by rw [foldl_updateSlot_eq]
@[simp] theorem updateSlot_cfgNumElements (f : Word → Word) (s : State) (i : Nat) : (updateSlot f s i).cfgNumElements = s.cfgNumElements := fieldPut_cfgNumElements ..
@[simp] theorem foldl_updateSlot_cfgNumElements (f : Word → Word) (l : List Nat) (s : State) : (l.foldl (updateSlot f) s).cfgNumElements = s.cfgNumElements := by rw [foldl_updateSlot_eq]
@[simp] theorem updateSlot_cfgElementBits (f : Word → Word) (s : State) (i : Nat) : (updateSlot f s i).cfgElementBits = s.cfgElementBits := fieldPut_cfgElementBits ..
@[simp] theorem foldl_updateSlot_cfgElementBits (f : Word → Word) (l : List Nat) (s : State) : (l.foldl (updateSlot f) s).cfgElementBits = s.cfgElementBits := by rw [foldl_updateSlot_eq]
@[simp] theorem updateSlot_cfgNumHashes (f : Word → Word) (s : State) (i : Nat) : (updateSlot f s i).cfgNumHashes = s.cfgNumHashes := fieldPut_cfgNumHashes ..
@[simp] theorem foldl_updateSlot_cfgNumHashes (f : Word → Word) (l : List Nat) (s : State) : (l.foldl (updateSlot f) s).cfgNumHashes = s.cfgNumHashes := by rw [foldl_updateSlot_eq]
@[simp] theorem updateSlot_configured (f : Word → Word) (s : State) (i : Nat) : (updateSlot f s i).configured = s.configured := fieldPut_configured ..
@[simp] theorem foldl_updateSlot_configured (f : Word → Word) (l : List Nat) (s : State) : (l.foldl (updateSlot f) s).configured = s.configured := by rw [foldl_updateSlot_eq]
@[simp] theorem updateSlot_epw (f : Word → Word) (s : State) (i : Nat) : (updateSlot f s i).epw = s.epw := fieldPut_epw ..
@[simp] theorem foldl_updateSlot_epw (f : Word → Word) (l : List Nat) (s : State) : (l.foldl (updateSlot f) s).epw = s.epw := by rw [foldl_updateSlot_eq]
@[simp] theorem updateSlot_numWords (f : Word → Word) (s : State) (i : Nat) : (updateSlot f s i).numWords = s.numWords := fieldPut_numWords ..
@[simp] theorem foldl_updateSlot_numWords (f : Word → Word) (l : List Nat) (s : State) : (l.foldl (updateSlot f) s).numWords = s.numWords := by rw [foldl_updateSlot_eq]
@[simp] theorem updateSlot_hsValid (f : Word → Word) (s : State) (i : Nat) : (updateSlot f s i).hsValid = s.hsValid := fieldPut_hsValid ..
@[simp] theorem foldl_updateSlot_hsValid (f : Word → Word) (l : List Nat) (s : State) : (l.foldl (updateSlot f) s).hsValid = s.hsValid := by rw [foldl_updateSlot_eq]
@[simp] theorem updateSlot_errSticky (f : Word → Word) (s : State) (i : Nat) : (updateSlot f s i).errSticky = s.errSticky := fieldPut_errSticky ..
@[simp] theorem foldl_updateSlot_errSticky (f : Word → Word) (l : List Nat) (s : State) : (l.foldl (updateSlot f) s).errSticky = s.errSticky := by rw [foldl_updateSlot_eq]
@[simp] theorem updateSlot_err (f : Word → Word) (s : State) (i : Nat) : (updateSlot f s i).err = s.err := fieldPut_err ..
@[simp] theorem foldl_updateSlot_err (f : Word → Word) (l : List Nat) (s : State) : (l.foldl (updateSlot f) s).err = s.err := by rw [foldl_updateSlot_eq]
@[simp] theorem updateSlot_errOp (f : Word → Word) (s : State) (i : Nat) : (updateSlot f s i).errOp = s.errOp := fieldPut_errOp ..
@[simp] theorem foldl_updateSlot_errOp (f : Word → Word) (l : List Nat) (s : State) : (l.foldl (updateSlot f) s).errOp = s.errOp := by rw [foldl_updateSlot_eq]
@[simp] theorem updateSlot_argIndex (f : Word → Word) (s : State) (i : Nat) : (updateSlot f s i).argIndex = s.argIndex := fieldPut_argIndex ..
@[simp] theorem foldl_updateSlot_argIndex (f : Word → Word) (l : List Nat) (s : State) : (l.foldl (updateSlot f) s).argIndex = s.argIndex := by rw [foldl_updateSlot_eq]
@[simp] theorem updateSlot_argValue (f : Word → Word) (s : State) (i : Nat) : (updateSlot f s i).argValue = s.argValue := fieldPut_argValue ..
@[simp] theorem foldl_updateSlot_argValue (f : Word → Word) (l : List Nat) (s : State) : (l.foldl (updateSlot f) s).argValue = s.argValue := by rw [foldl_updateSlot_eq]
@[simp] theorem updateSlot_digest0 (f : Word → Word) (s : State) (i : Nat) : (updateSlot f s i).digest0 = s.digest0 := fieldPut_digest0 ..
@[simp] theorem foldl_updateSlot_digest0 (f : Word → Word) (l : List Nat) (s : State) : (l.foldl (updateSlot f) s).digest0 = s.digest0 := by rw [foldl_updateSlot_eq]
@[simp] theorem updateSlot_digest1 (f : Word → Word) (s : State) (i : Nat) : (updateSlot f s i).digest1 = s.digest1 := fieldPut_digest1 ..
@[simp] theorem foldl_updateSlot_digest1 (f : Word → Word) (l : List Nat) (s : State) : (l.foldl (updateSlot f) s).digest1 = s.digest1 := by rw [foldl_updateSlot_eq]
@[simp] theorem updateSlot_hsBase (f : Word → Word) (s : State) (i : Nat) : (updateSlot f s i).hsBase = s.hsBase := fieldPut_hsBase ..
@[simp] theorem foldl_updateSlot_hsBase (f : Word → Word) (l : List Nat) (s : State) : (l.foldl (updateSlot f) s).hsBase = s.hsBase := by rw [foldl_updateSlot_eq]
@[simp] theorem updateSlot_hsIncr (f : Word → Word) (s : State) (i : Nat) : (updateSlot f s i).hsIncr = s.hsIncr := fieldPut_hsIncr ..
@[simp] theorem foldl_updateSlot_hsIncr (f : Word → Word) (l : List Nat) (s : State) : (l.foldl (updateSlot f) s).hsIncr = s.hsIncr := by rw [foldl_updateSlot_eq]
@[simp] theorem updateSlot_result (f : Word → Word) (s : State) (i : Nat) : (updateSlot f s i).result = s.result := fieldPut_result ..
@[simp] theorem foldl_updateSlot_result (f : Word → Word) (l : List Nat) (s : State) : (l.foldl (updateSlot f) s).result = s.result := by rw [foldl_updateSlot_eq]
@[simp] theorem updateSlot_storageEpoch (f : Word → Word) (s : State) (i : Nat) : (updateSlot f s i).storageEpoch = s.storageEpoch := fieldPut_storageEpoch ..
@[simp] theorem foldl_updateSlot_storageEpoch (f : Word → Word) (l : List Nat) (s : State) : (l.foldl (updateSlot f) s).storageEpoch = s.storageEpoch := by rw [foldl_updateSlot_eq]
@[simp] theorem updateSlot_pending (f : Word → Word) (s : State) (i : Nat) : (updateSlot f s i).pending = s.pending := fieldPut_pending ..
@[simp] theorem foldl_updateSlot_pending (f : Word → Word) (l : List Nat) (s : State) : (l.foldl (updateSlot f) s).pending = s.pending := by rw [foldl_updateSlot_eq]
@[simp] theorem updateSlot_observed (f : Word → Word) (s : State) (i : Nat) : (updateSlot f s i).observed = s.observed := fieldPut_observed ..
@[simp] theorem foldl_updateSlot_observed (f : Word → Word) (l : List Nat) (s : State) : (l.foldl (updateSlot f) s).observed = s.observed := by rw [foldl_updateSlot_eq]

theorem mode_foldl_updateSlot (f : Word → Word) (l : List Nat) (s : State) : (l.foldl (updateSlot f) s).mode = s.mode := by
  rw [foldl_updateSlot_eq]; rfl

/-- The fold of FLT_ADD is a fold of updates. -/
theorem foldl_addSlot (l : List Nat) (s : State) : l.foldl addSlot s = l.foldl (updateSlot (addUpdate s.mode)) s := by
  induction l generalizing s with
  | nil => rfl
  | cons i l ih =>
    rw [List.foldl_cons, List.foldl_cons, ih, addSlot_eq]
    have : (updateSlot (addUpdate s.mode) s i).mode = s.mode := mode_fieldPut ..
    rw [this]

theorem Layout.updateSlot {s : State} (h : Layout s) (f : Word → Word) (i : Nat) : Layout (updateSlot f s i) :=
  h.fieldPut i _

/-- `f` keeps values of at most W bits within W bits. -/
def Keeps (w : Nat) (f : Word → Word) : Prop := ∀ v : Word, v.toNat < 2 ^ w → (f v).toNat < 2 ^ w

/-- One update: counter i is updated, every other one is unchanged. -/
theorem fieldGet_updateSlot {s : State} (h : Layout s) {f : Word → Word} (hf : Keeps s.elementBits f) {i : Nat}
    (hi : i < s.numElements) (j : Nat) :
    fieldGet (updateSlot f s i) j = if j = i then f (fieldGet s i) else fieldGet s j := by
  have hv := hf _ (toNat_fieldGet_lt s i)
  split
  · subst_vars; exact fieldGet_fieldPut_self h hi hv
  · rename_i hne; exact fieldGet_fieldPut_of_ne h hi hv hne

/-- A fold of updates: a counter is updated as often as its index occurs (43_filter.md R217). -/
theorem fieldGet_foldl_updateSlot {f : Word → Word} (l : List Nat) {s : State} (h : Layout s)
    (hf : Keeps s.elementBits f) (hl : ∀ i ∈ l, i < s.numElements) (j : Nat) :
    fieldGet (l.foldl (updateSlot f) s) j = f^[l.count j] (fieldGet s j) := by
  induction l generalizing s with
  | nil => rfl
  | cons i l ih =>
    have hi : i < s.numElements := hl i (by simp)
    have he : (updateSlot f s i).elementBits = s.elementBits := elementBits_fieldPut ..
    have hn : (updateSlot f s i).numElements = s.numElements := numElements_fieldPut ..
    rw [List.foldl_cons, ih (h.updateSlot f i) (he ▸ hf) (fun k hk => hn ▸ hl k (List.mem_cons_of_mem _ hk)),
      fieldGet_updateSlot h hf hi, List.count_cons]
    by_cases hji : j = i
    · subst hji
      simp [Function.iterate_succ_apply]
    · simp [hji, Ne.symm hji]

/-- A fold of updates leaves every word alone that holds none of its counters. -/
theorem memRead_foldl_updateSlot (f : Word → Word) (l : List Nat) (s : State) {k : Nat}
    (hk : ∀ i ∈ l, k ≠ wordIndex s i) : memRead (l.foldl (updateSlot f) s) k = memRead s k := by
  induction l generalizing s with
  | nil => rfl
  | cons i l ih =>
    have hw : ∀ j, wordIndex (updateSlot f s i) j = wordIndex s j := fun j => wordIndex_fieldPut ..
    rw [List.foldl_cons, ih _ fun j hj => by rw [hw]; exact hk j (List.mem_cons_of_mem _ hj)]
    exact memRead_fieldPut_of_ne s _ (hk i (by simp))

/-- n saturating increments (42_counter_vector.md R182; 43_filter.md R221). -/
theorem toNat_iterate_saturatingInc {top : Word} (n : Nat) {v : Word} (hv : v.toNat ≤ top.toNat) :
    ((saturatingInc top)^[n] v).toNat = min (v.toNat + n) top.toNat := by
  induction n generalizing v with
  | zero => simp; omega
  | succ n ih =>
    have ht := top.isLt
    have h1 : (saturatingInc top v).toNat = min (v.toNat + 1) top.toNat := by
      unfold saturatingInc
      split
      · subst_vars; omega
      · rename_i hne
        have : v.toNat ≠ top.toNat := fun h => hne (BitVec.eq_of_toNat_eq h)
        rw [BitVec.toNat_add, Nat.mod_eq_of_lt] <;> simp <;> omega
    rw [Function.iterate_succ_apply, ih (by omega), h1]
    omega

/-- n saturating decrements (42_counter_vector.md R182). -/
theorem toNat_iterate_saturatingDec (n : Nat) (v : Word) : (saturatingDec^[n] v).toNat = v.toNat - n := by
  induction n generalizing v with
  | zero => rfl
  | succ n ih =>
    have h1 : (saturatingDec v).toNat = v.toNat - 1 := by
      unfold saturatingDec
      split
      · subst_vars; rfl
      · rename_i hne
        have : v.toNat ≠ 0 := fun h => hne (BitVec.eq_of_toNat_eq h)
        have := v.isLt
        rw [BitVec.toNat_sub]
        simp
        omega
    rw [Function.iterate_succ_apply, ih, h1]
    omega

theorem toNat_saturatingInc {top v : Word} (hv : v.toNat ≤ top.toNat) :
    (saturatingInc top v).toNat = min (v.toNat + 1) top.toNat := toNat_iterate_saturatingInc 1 hv

theorem toNat_saturatingDec (v : Word) : (saturatingDec v).toNat = v.toNat - 1 := toNat_iterate_saturatingDec 1 v

theorem keeps_saturatingDec (w : Nat) : Keeps w saturatingDec := fun v hv => by
  rw [toNat_saturatingDec]; omega

theorem keeps_saturatingInc {w : Nat} {top : Word} (ht : top.toNat + 1 = 2 ^ w) : Keeps w (saturatingInc top) := by
  intro v hv
  rw [toNat_saturatingInc (by omega)]
  omega

/-- Setting a bit n times. -/
theorem iterate_setBit (n : Nat) (v : Word) : (fun _ : Word => 1#64)^[n] v = if n = 0 then v else 1#64 := by
  cases n with
  | zero => rfl
  | succ n => rw [Function.iterate_succ_apply']; simp

/-- What the storage form says, in words of the listed words. -/
theorem storageOk_iff (s : State) : storageOk s = true ↔ Memory.wf s.words ∧ ∀ c ∈ s.words,
    c.1 < s.numWords.toNat ∧ ∀ b, c.2.getLsbD b = true → counterBit s c.1 b = true := by
  simp only [storageOk, Bool.and_eq_true, decide_eq_true_eq, List.all_eq_true, List.mem_range, Bool.or_eq_true,
    Bool.not_eq_true']
  constructor
  · rintro ⟨h, hc⟩
    refine ⟨h, fun c hm => ⟨(hc c hm).1, fun b hb => ?_⟩⟩
    have hlt : b < 64 := by
      by_contra hge
      rw [BitVec.getLsbD_of_ge _ _ (by omega)] at hb
      cases hb
    rcases (hc c hm).2 b hlt with h | h
    · rw [h] at hb; cases hb
    · exact h
  · rintro ⟨h, hc⟩
    refine ⟨h, fun c hm => ⟨(hc c hm).1, fun b _ => ?_⟩⟩
    by_cases hb : c.2.getLsbD b = true
    · exact .inr ((hc c hm).2 b hb)
    · exact .inl (by simpa using hb)

/-- The bits of the field of a counter below N are counter bits. -/
theorem Layout.counterBit {s : State} (h : Layout s) {i : Nat} (hi : i < s.numElements) {b : Nat}
    (h1 : fieldLsb s i ≤ b) (h2 : b < fieldLsb s i + s.elementBits) : counterBit s (wordIndex s i) b = true := by
  have hs := h.lsbAdd i
  rw [Nat.mul_add, Nat.mul_one] at hs
  have hd : (s.wordBits - 1 - b) / s.elementBits = slotInWord s i := by
    rw [Nat.div_eq_iff h.widthPos, Nat.mul_comm]
    omega
  have hsum : wordIndex s i * s.epw.toNat + slotInWord s i = i := by
    unfold wordIndex slotInWord
    rw [Nat.mul_comm]
    exact Nat.div_add_mod ..
  simp only [Machine.counterBit, hd, hsum, Bool.and_eq_true, decide_eq_true_eq]
  exact ⟨⟨by omega, h.slotLt i⟩, hi⟩

/-- FieldPut of a counter below N keeps the storage form (42_counter_vector.md R181). -/
theorem fieldPut_keeps_storageOk {s : State} (h : Layout s) {i : Nat} (hi : i < s.numElements) {v : Word}
    (hv : v.toNat < 2 ^ s.elementBits) (hs : storageOk s = true) : storageOk (fieldPut s i v) = true := by
  rw [storageOk_iff] at hs ⊢
  refine ⟨fieldPut_keeps_wf i v hs.1, ?_⟩
  have hcb : ∀ j b, Machine.counterBit (Machine.fieldPut s i v) j b = Machine.counterBit s j b := by
    intro j b
    simp only [Machine.counterBit, State.wordBits, State.elementBits, State.numElements, fieldPut_build,
      fieldPut_cfgElementBits, fieldPut_cfgNumElements, fieldPut_epw]
    rfl
  intro c hc
  rw [fieldPut_numWords]
  have hrd := getLsbD_memRead_fieldPut h hi hv (wordIndex s i)
  simp only [Machine.fieldPut, memWrite, h.inUse hi, if_true] at hc
  rcases Memory.mem_write.1 hc with ⟨rfl, -⟩ | ⟨hc, -⟩
  · refine ⟨h.wordLt hi, fun b hb => ?_⟩
    rw [hcb]
    have hb' : (memRead (Machine.fieldPut s i v) (wordIndex s i)).getLsbD b = true := by
      unfold Machine.fieldPut
      rw [memRead_memWrite _ _ _ _ (h.inUse hi), if_pos rfl]
      exact hb
    rw [hrd] at hb'
    split at hb'
    · rename_i hin
      exact h.counterBit hi hin.2.1 hin.2.2
    · simp only [memRead, h.inUse hi, if_true, BitVec.getLsbD_and, Bool.and_eq_true] at hb'
      rcases Memory.read_eq_zero_or_mem s.words (wordIndex s i) with hz | hm
      · rw [hz] at hb'; simp at hb'
      · exact (hs.2 _ hm).2 b hb'.1
  · refine ⟨(hs.2 c hc).1, fun b hb => ?_⟩
    rw [hcb]
    exact (hs.2 c hc).2 b hb

/-- A fold of updates of counters below N keeps the storage form. -/
theorem foldl_updateSlot_keeps_storageOk {f : Word → Word} (l : List Nat) {s : State} (h : Layout s)
    (hf : Keeps s.elementBits f) (hl : ∀ i ∈ l, i < s.numElements) (hs : storageOk s = true) :
    storageOk (l.foldl (updateSlot f) s) = true := by
  induction l generalizing s with
  | nil => exact hs
  | cons i l ih =>
    have he : (updateSlot f s i).elementBits = s.elementBits := elementBits_fieldPut ..
    have hn : (updateSlot f s i).numElements = s.numElements := numElements_fieldPut ..
    exact ih (h.updateSlot f i) (he ▸ hf) (fun k hk => hn ▸ hl k (List.mem_cons_of_mem _ hk))
      (fieldPut_keeps_storageOk h (hl i (by simp)) (hf _ (toNat_fieldGet_lt s i)) hs)

end Sys2Proof.Machine
end

