-- ==== Sys2Proof/Laws/Exec.lean ====
section
/-! SUPPORT. What a command can do, said once: its checks, the words it reaches and its effect. Everything about exec is
derived from exec_eq and exec_cases. -/

namespace Sys2Proof.Machine

/-- The checks of a command, in its rule's order (60_exceptions.md R246). -/
def commandCheck : Instr → State → Option ErrorCode
  | .nop, _ | .clearErr, _ | .hsLoad, _ => none
  | .configure, s => configureCheck s
  | .release, s => configuredCheck s
  | .vecGet, s | .vecSet, s | .vecInc, s | .vecDec, s => indexCheck s
  | .vecReadWord, s => wordIndexCheck s
  | .hsNext, s => streamCheck s
  | .fltAdd, s | .fltContains, s => filterCheck s
  | .fltRemove, s => removeCheck s

/-- The storage words a command reaches by index. -/
def commandWords : Instr → State → List Nat
  | .vecGet, s | .vecSet, s | .vecInc, s | .vecDec, s => [wordIndex s (indexOperand s)]
  | .vecReadWord, s => [indexOperand s]
  | .fltAdd, s | .fltRemove, s | .fltContains, s => filterWords s
  | .nop, _ | .configure, _ | .release, _ | .clearErr, _ | .hsLoad, _ | .hsNext, _ => []

/-- The effect of a command whose checks pass, before complete(). -/
def commandEffect : Instr → State → State
  | .nop, s => s
  | .configure, s => construct s
  | .release, s => dropStorage s
  | .clearErr, s => { s with errSticky := false, errOp := 0#8 }
  | .vecGet, s => setResult (fieldGet s (indexOperand s)) s
  | .vecSet, s => setResult (clampToMax s s.argValue) (fieldPut s (indexOperand s) (clampToMax s s.argValue))
  | .vecInc, s =>
    setResult (saturatingInc s.fieldMask (fieldGet s (indexOperand s)))
      (updateSlot (saturatingInc s.fieldMask) s (indexOperand s))
  | .vecDec, s =>
    setResult (saturatingDec (fieldGet s (indexOperand s))) (updateSlot saturatingDec s (indexOperand s))
  | .vecReadWord, s => setResult (memRead s (indexOperand s)) s
  | .hsLoad, s => setStream (streamBase s) (streamIncr s) s
  | .hsNext, s => { s with result := s.hsBase, hsBase := s.hsBase + s.hsIncr }
  | .fltAdd, s => filterStream s ((filterSlots s).foldl (updateSlot (addUpdate s.mode)) s)
  | .fltRemove, s => filterStream s ((filterSlots s).foldl (updateSlot saturatingDec) s)
  | .fltContains, s => filterStream s (setResult ((filterSlots s).foldl (testSlot s) 1#64) s)

/-- A command in one line: its first failing check, or its effect on words that exist. -/
theorem exec_eq (i : Instr) (s : State) : exec i s =
    match commandCheck i s with
    | some code => .next (raiseError (opcode i) code s)
    | none => if wordsExist s (commandWords i s) then .next (complete (commandEffect i s)) else .fault .noSuchWord := by
  cases i <;> try rfl
  case fltAdd =>
    show execFltAdd s = _
    unfold execFltAdd
    rw [foldl_addSlot]
    rfl

/-- A command that gives a next state failed a check, or had its effect. -/
theorem exec_cases {i : Instr} {s t : State} (h : exec i s = .next t) :
    (∃ code, commandCheck i s = some code ∧ t = raiseError (opcode i) code s) ∨
    (commandCheck i s = none ∧ wordsExist s (commandWords i s) = true ∧ t = complete (commandEffect i s)) := by
  rw [exec_eq] at h
  split at h
  · rename_i code hc
    exact .inl ⟨code, hc, (Host.Outcome.next.inj h).symm⟩
  · rename_i hc
    split at h
    · rename_i hw
      exact .inr ⟨hc, hw, (Host.Outcome.next.inj h).symm⟩
    · cases h

theorem exec_of_check {i : Instr} {s : State} {code : ErrorCode} (h : commandCheck i s = some code) :
    exec i s = .next (raiseError (opcode i) code s) := by rw [exec_eq, h]

theorem exec_of_ok {i : Instr} {s : State} (h : commandCheck i s = none) (hw : wordsExist s (commandWords i s) = true) :
    exec i s = .next (complete (commandEffect i s)) := by rw [exec_eq, h]; simp [hw]

/-- A command never refuses. -/
theorem exec_ne_refused (i : Instr) (s : State) (r : Refusal) : exec i s ≠ .refused r := by
  rw [exec_eq]
  split
  · simp
  · split <;> simp

/-- A run of commands, one command on. -/
theorem runCommands_cons {i : Instr} {s t : State} (rest : List Instr) (h : exec i s = .next t) :
    runCommands (i :: rest) s = runCommands rest t := by rw [runCommands, h]

/-- The modes, in terms of CFG_MODE.MODE (10_state.md R24). -/
theorem mode_raw_iff (s : State) : s.mode = .raw ↔ s.cfgMode = 0#2 := by
  unfold State.mode modeOfBits
  split_ifs <;> simp_all

theorem mode_bitset_iff (s : State) : s.mode = .bitset ↔ s.cfgMode = 1#2 := by
  unfold State.mode modeOfBits
  split_ifs <;> simp_all

theorem mode_counting_iff (s : State) : s.mode = .counting ↔ s.cfgMode = 2#2 := by
  unfold State.mode modeOfBits
  split_ifs <;> simp_all

@[simp] theorem wordsExist_nil (s : State) : wordsExist s [] = true := rfl

theorem wordsExist_iff (s : State) (js : List Nat) :
    wordsExist s js = true ↔ ∀ j ∈ js, j < s.build.maxWords.toNat := by simp [wordsExist]

theorem indexCheck_none {s : State} (h : indexCheck s = none) :
    s.configured = true ∧ indexOperand s < s.numElements := by
  unfold indexCheck at h
  split at h
  · cases h
  · split at h
    · cases h
    · rename_i h1 h2
      exact ⟨by simpa using h1, Nat.lt_of_not_le h2⟩

theorem indexCheck_ok {s : State} (hc : s.configured = true) (hi : indexOperand s < s.numElements) :
    indexCheck s = none := by
  unfold indexCheck
  rw [if_neg (by simp [hc])]
  exact if_neg (Nat.not_le.2 hi)

theorem wordIndexCheck_none {s : State} (h : wordIndexCheck s = none) :
    s.configured = true ∧ indexOperand s < s.numWords.toNat := by
  unfold wordIndexCheck at h
  split at h
  · cases h
  · split at h
    · cases h
    · rename_i h1 h2
      exact ⟨by simpa using h1, Nat.lt_of_not_le h2⟩

theorem filterCheck_none {s : State} (h : filterCheck s = none) : s.configured = true ∧ s.mode ≠ .raw := by
  unfold filterCheck at h
  split at h
  · cases h
  · split at h
    · cases h
    · rename_i h1 h2
      exact ⟨by simpa using h1, h2⟩

theorem removeCheck_none {s : State} (h : removeCheck s = none) :
    s.configured = true ∧ s.mode ≠ .raw ∧ s.mode ≠ .bitset := by
  unfold removeCheck at h
  split at h
  · cases h
  · split at h
    · cases h
    · split at h
      · cases h
      · rename_i h1 h2 h3
        exact ⟨by simpa using h1, h2, h3⟩

/-- In a filter mode the invariant gives N ≥ 1, k ≥ 1 and the mode's width (43_filter.md R210). -/
theorem inv_filter {s : State} (h : s.inv = true) (hc : s.configured = true) (hm : s.mode ≠ .raw) :
    0 < s.numElements ∧ 0 < s.numHashes ∧
      ((s.mode = .bitset ∧ s.elementBits = 1) ∨ (s.mode = .counting ∧ s.elementBits = 4)) := by
  have hg := (inv_parts h).2.1
  simp only [geometryOk, hc, if_true, configurationOk, Bool.and_eq_true, Bool.or_eq_true, decide_eq_true_eq, ne_eq] at hg
  obtain ⟨hw, -, -, -, hr⟩ := hg
  have hr := hr.resolve_left hm
  refine ⟨by omega, by omega, ?_⟩
  unfold widthLegal at hw
  split at hw <;> simp_all

/-- The update of FLT_ADD keeps values within the mode's width. -/
theorem keeps_addUpdate {s : State} (h : s.inv = true) (hc : s.configured = true) (hm : s.mode ≠ .raw) :
    Keeps s.elementBits (addUpdate s.mode) := by
  rcases (inv_filter h hc hm).2.2 with ⟨h1, h2⟩ | ⟨h1, h2⟩ <;> rw [h1, h2]
  · intro v _
    show (1#64).toNat < 2 ^ 1
    decide
  · exact keeps_saturatingInc (by decide)

theorem filterWords_exist {s : State} (h : s.inv = true) (hc : s.configured = true) (hm : s.mode ≠ .raw) :
    wordsExist s (filterWords s) = true := by
  rw [wordsExist_iff]
  intro j hj
  obtain ⟨i, hi, rfl⟩ := List.mem_map.1 hj
  exact (Layout.of_inv h hc).exists (filterSlots_lt (inv_filter h hc hm).1 hi)

/-- In a state that meets the invariant the words a command reaches exist: no command faults (70_reset_and_hazards.md R287). -/
theorem commandWords_exist {s : State} (h : s.inv = true) {i : Instr} (hk : commandCheck i s = none) :
    wordsExist s (commandWords i s) = true := by
  have index : indexCheck s = none → wordsExist s [wordIndex s (indexOperand s)] = true := by
    intro hk
    obtain ⟨hc, hi⟩ := indexCheck_none hk
    simpa [wordsExist_iff] using (Layout.of_inv h hc).exists hi
  cases i <;> try rfl
  case vecGet => exact index hk
  case vecSet => exact index hk
  case vecInc => exact index hk
  case vecDec => exact index hk
  case vecReadWord =>
    obtain ⟨hc, hi⟩ := wordIndexCheck_none hk
    have := (Layout.of_inv h hc).capacity
    simp only [commandWords, wordsExist_iff, List.mem_singleton, forall_eq]
    omega
  case fltAdd => exact filterWords_exist h (filterCheck_none hk).1 (filterCheck_none hk).2
  case fltRemove => exact filterWords_exist h (removeCheck_none hk).1 (removeCheck_none hk).2.1
  case fltContains => exact filterWords_exist h (filterCheck_none hk).1 (filterCheck_none hk).2

/-- FLT_CONTAINS's conjunction (43_filter.md R216): 1 if every counter is above 0. -/
theorem foldl_testSlot (s : State) (l : List Nat) (r : Word) :
    l.foldl (testSlot s) r = if ∀ i ∈ l, fieldGet s i ≠ 0#64 then r else 0#64 := by
  induction l generalizing r with
  | nil => simp
  | cons i l ih =>
    rw [List.foldl_cons, ih]
    unfold testSlot
    by_cases h : fieldGet s i = 0#64 <;> simp [h]

end Sys2Proof.Machine
end

