-- ==== Sys2Proof/Laws/PerInstr.lean ====
section
/-! SUPPORT. A family of facts about each command as syntax: its word is legal, has the fields of 30_encoding.md R91, and
decodes to it. -/

namespace Sys2Proof.Laws.RoundTrip

/-- The command is well formed, its word is legal, with RSV 0 and its own opcode, and decodes to it (30_encoding.md R90 to
R94). -/
def Statement (i : Instr) : Prop :=
  i.wellFormed = true ∧ commandLegal (encode i) = true ∧ rsvField (encode i) = 0#56 ∧ opcField (encode i) = opcode i ∧
    decode (encode i) = .ok i

theorem nop : Statement .nop := by unfold Statement; decide
theorem configure : Statement .configure := by unfold Statement; decide
theorem release : Statement .release := by unfold Statement; decide
theorem clearErr : Statement .clearErr := by unfold Statement; decide
theorem vecGet : Statement .vecGet := by unfold Statement; decide
theorem vecSet : Statement .vecSet := by unfold Statement; decide
theorem vecInc : Statement .vecInc := by unfold Statement; decide
theorem vecDec : Statement .vecDec := by unfold Statement; decide
theorem vecReadWord : Statement .vecReadWord := by unfold Statement; decide
theorem hsLoad : Statement .hsLoad := by unfold Statement; decide
theorem hsNext : Statement .hsNext := by unfold Statement; decide
theorem fltAdd : Statement .fltAdd := by unfold Statement; decide
theorem fltRemove : Statement .fltRemove := by unfold Statement; decide
theorem fltContains : Statement .fltContains := by unfold Statement; decide

end Sys2Proof.Laws.RoundTrip
end

