-- ==== Sys2Proof/Laws/Registers.lean ====
section
/-! SUPPORT. The laws of fields in 64-bit values, bit by bit. -/

namespace Sys2Proof.Machine

/-- A placed field, bit by bit. -/
@[simp] theorem getLsbD_place {n : Nat} (v : BitVec n) (lsb b : Nat) :
    (place v lsb).getLsbD b = (decide (b < 64) && (decide (lsb ≤ b) && v.getLsbD (b - lsb))) := by
  simp only [place, BitVec.getLsbD_shiftLeft, BitVec.getLsbD_setWidth]
  by_cases h1 : b < 64
  · by_cases h2 : b < lsb
    · simp [h1, h2, Nat.not_le.2 h2]
    · have : b - lsb < 64 := by omega
      simp [h1, h2, this, Nat.not_lt.1 h2]
  · simp [h1]

/-- A field taken out, bit by bit. -/
@[simp] theorem getLsbD_field {n : Nat} (v : BitVec n) (hi lo b : Nat) :
    (v.extractLsb hi lo).getLsbD b = (decide (b < hi - lo + 1) && v.getLsbD (lo + b)) := by
  simp [BitVec.extractLsb]

@[simp] theorem getElem_place {n : Nat} (v : BitVec n) (lsb b : Nat) (h : b < 64) :
    (place v lsb)[b] = (decide (lsb ≤ b) && v.getLsbD (b - lsb)) := by
  rw [← BitVec.getLsbD_eq_getElem, getLsbD_place]
  simp [h]

/-- A placed field read back. -/
theorem field_place {n : Nat} (v : BitVec n) {lsb hi : Nat} (hl : lsb ≤ hi) (h : hi < 64) :
    (place v lsb).extractLsb hi lsb = v.setWidth (hi - lsb + 1) := by
  apply BitVec.eq_of_getLsbD_eq
  intro i hi'
  have h1 : lsb + i < 64 := by omega
  rw [getLsbD_field, getLsbD_place, BitVec.getLsbD_setWidth]
  simp only [h1, decide_true, Bool.true_and, Nat.le_add_right, Nat.add_sub_cancel_left]

/-- The bits outside a placed field are 0. -/
theorem field_place_outside {n : Nat} (v : BitVec n) {lsb hi lo : Nat} (h : hi < lsb ∨ lsb + n ≤ lo) (hl : lo ≤ hi) :
    (place v lsb).extractLsb hi lo = 0#(hi - lo + 1) := by
  apply BitVec.eq_of_getLsbD_eq
  intro i hi'
  rw [getLsbD_field, getLsbD_place]
  rcases h with h | h
  · have : ¬ lsb ≤ lo + i := by omega
    simp [this]
  · have : v.getLsbD (lo + i - lsb) = false := BitVec.getLsbD_of_ge _ _ (by omega)
    simp [this]

theorem field_or (a b : Word) (hi lo : Nat) :
    (a ||| b).extractLsb hi lo = a.extractLsb hi lo ||| b.extractLsb hi lo := by
  apply BitVec.eq_of_getLsbD_eq
  intro i _
  simp only [getLsbD_field, BitVec.getLsbD_or]
  cases decide (i < hi - lo + 1) <;> simp

/-- inc of 41_hash_stream.md R151, bit by bit. -/
theorem getLsbD_streamIncr (s : State) (b : Nat) : (streamIncr s).getLsbD b =
    if b < 32 then s.digest1.getLsbD (32 + b) else decide (b < 64) && s.digest0.getLsbD (b - 32) := by
  have h := BitVec.getLsbD_append (x := s.digest0.extractLsb 31 0) (y := s.digest1.extractLsb 63 32) (i := b)
  refine Eq.trans h ?_
  by_cases hb : b < 32
  · simp [hb]
  · have h1 : decide (b ≤ 63) = decide (b < 64) := decide_eq_decide.2 (by omega)
    simp [hb, h1]

end Sys2Proof.Machine
end

