-- ==== Sys2Proof/Laws/Step.lean ====
section
/-! SUPPORT. What a step can do, said once: step_cases. Everything about step is derived from it. -/

namespace Sys2Proof.Machine

/-- The engine admits exactly the 64-bit accesses at a register's offset (20_memory.md R64). -/
theorem admitted_eq {width offset : Nat} {r : Reg} (h : admitted width offset = some r) :
    width = 64 ∧ offset = regOffset r := by
  unfold admitted at h
  split at h
  · rename_i hw
    refine ⟨hw.1, ?_⟩
    have hlt : offset / 8 < 16 := by
      by_contra hge
      have : registerMap.length ≤ offset / 8 := Nat.le_of_not_lt hge
      rw [List.getElem?_eq_none this] at h
      cases h
    have table : ∀ n < 16, ∀ q, registerMap[n]? = some q → regOffset q = 8 * n := by decide
    have := table _ hlt r h
    omega
  · cases h

@[simp] theorem admitted_regOffset (r : Reg) : admitted 64 (regOffset r) = some r := by cases r <;> rfl

/-- A write to a register other than CMD stores, or is ignored. -/
theorem performAccess_write {r : Reg} (hr : r ≠ .cmd) (v : Word) (s : State) :
    performAccess (.write 64 (regOffset r) v) s = .next (regWrite s r v) := by
  cases r <;> first | exact absurd rfl hr | rfl

/-- A step on a pending event that gives a next state read a register, wrote one, ran a command, met an illegal word, or
was a reset. -/
theorem step_cases {s t : State} {e : HostEvent} {rest : List HostEvent} (hp : s.pending = e :: rest)
    (h : step s = .next t) :
    (∃ r, e = .access (.read 64 (regOffset r)) ∧ t = performRead r { s with pending := rest }) ∨
    (∃ r v, r ≠ .cmd ∧ e = .access (.write 64 (regOffset r) v) ∧ t = regWrite { s with pending := rest } r v) ∨
    (∃ c i, e = commandEvent c ∧ decode c = .ok i ∧ exec i { s with pending := rest } = .next t) ∨
    (∃ c d, e = commandEvent c ∧ decode c = .error d ∧
      t = raiseError (opcField c) .illegalCommand { s with pending := rest }) ∨
    ∃ running held, e = .reset running held ∧ t = performReset held { s with pending := rest } := by
  unfold step performNext at h
  rw [hp] at h
  cases e with
  | reset running held => exact .inr (.inr (.inr (.inr ⟨running, held, rfl, (Host.Outcome.next.inj h).symm⟩)))
  | heldAtReset a => cases h
  | access a =>
    cases a with
    | read width offset =>
      simp only [performEvent, performAccess] at h
      split at h
      · rename_i r ha
        obtain ⟨rfl, rfl⟩ := admitted_eq ha
        exact .inl ⟨r, rfl, (Host.Outcome.next.inj h).symm⟩
      · cases h
    | write width offset v =>
      simp only [performEvent, performAccess] at h
      split at h
      · rename_i ha
        obtain ⟨rfl, rfl⟩ := admitted_eq ha
        unfold performCommand at h
        split at h
        · rename_i i hd
          exact .inr (.inr (.inl ⟨v, i, rfl, hd, h⟩))
        · rename_i d hd
          exact .inr (.inr (.inr (.inl ⟨v, d, rfl, hd, (Host.Outcome.next.inj h).symm⟩)))
      · rename_i r hr ha
        obtain ⟨rfl, rfl⟩ := admitted_eq ha
        exact .inr (.inl ⟨r, v, fun hc => hr hc, rfl, (Host.Outcome.next.inj h).symm⟩)
      · cases h

/-- A run of n + 1 steps that ends in a next state, one step on. -/
theorem core_run_succ {n : Nat} {s u : State} (h : core.run (n + 1) s = .next u) :
    ∃ t, step s = .next t ∧ core.run n t = .next u := by
  have key : ∀ (M : Host.Core) (m : Nat) (x y : M.State), M.run (m + 1) x = .next y →
      ∃ z, M.step x = .next z ∧ M.run m z = .next y := by
    intro M m x y hr
    rw [Host.Core.run] at hr
    cases hs : M.step x with
    | next z => rw [hs] at hr; exact ⟨z, rfl, hr⟩
    | fault f => rw [hs] at hr; cases hr
    | refused r => rw [hs] at hr; cases hr
  exact key core n s u h

end Sys2Proof.Machine
end

