-- ==== Sys2Proof/Tests/Slice0.lean ====
section
/-! SUPPORT. Tests, each with its source in the spec: the well-formedness smoke, decoding, at most two for each command
(95_test_vectors.md), and a witness for every statement that has hypotheses. -/

namespace Sys2Proof.Tests

open Sys2Proof.Machine

/-- The outcome is a next state that satisfies `p`. -/
def gives (o : Host.Outcome State Fault Refusal) (p : State → Bool) : Bool :=
  match o with
  | .next t => p t
  | .fault _ => false
  | .refused _ => false

/-- What `gives` says. -/
theorem gives_next {o : Host.Outcome State Fault Refusal} {p : State → Bool} (h : gives o p = true) :
    ∃ t, o = .next t ∧ p t = true := by
  unfold gives at h
  split at h
  · rename_i t; exact ⟨t, rfl, h⟩
  · cases h
  · cases h

/-- The outcome is a refusal with the reason `r`. -/
def refusedWith (o : Host.Outcome State Fault Refusal) (r : Refusal) : Bool :=
  match o with
  | .next _ => false
  | .fault _ => false
  | .refused q => q == r

/-- `s` with one host write pending. -/
def writing (s : State) (offset : Nat) (v : Word) : State := { s with pending := [.access (.write 64 offset v)] }

/-- `s` with the bytes of 95_test_vectors.md's digest A in DIGEST_0 and DIGEST_1. -/
def withDigestA (s : State) : State := { s with digest0 := 0x0011_2233_4455_6677#64, digest1 := 0x8899_AABB_CCDD_EEFF#64 }

/-- `s` with digest B. -/
def withDigestB (s : State) : State := { s with digest0 := 0xDEAD_BEEF_0123_4567#64, digest1 := 0x89AB_CDEF_FEDC_BA98#64 }

/-- A bare vector of 20 counters of 4 bits, configured: two words of 16 counters. -/
def raw : State :=
  { State.reset with cfgNumElements := 20#64, configured := true, epw := 16#8, numWords := 2#32 }

/-- A bare vector of 22 counters of 3 bits (VEC-4): 21 in a word, one padding bit. -/
def raw3 : State :=
  { State.reset with cfgNumElements := 22#64, cfgElementBits := 3#8, configured := true, epw := 21#8, numWords := 2#32 }

/-- One 64-bit counter in a 64-bit word (VEC-11). -/
def rawWide : State :=
  { State.reset with cfgNumElements := 1#64, cfgElementBits := 64#8, configured := true, epw := 1#8, numWords := 1#32 }

/-- An engine of 8-bit words with five counters of 3 bits (VEC-7). -/
def rawByte : State :=
  { State.resetOf { width := .w8, maxWords := 8192#32 } with
    cfgNumElements := 5#64, cfgElementBits := 3#8, configured := true, epw := 2#8, numWords := 3#32 }

/-- A BITSET filter with N = 64 and k = 5 (FLT-9), digest A. -/
def bits : State :=
  withDigestA { State.reset with
    cfgMode := 1#2, cfgNumElements := 64#64, cfgElementBits := 1#8, cfgNumHashes := 5#32, configured := true,
    epw := 64#8, numWords := 1#32 }

/-- A COUNTING filter with N = 16 and k = 4 (FLT-1), digest A. -/
def counting : State :=
  withDigestA { State.reset with
    cfgMode := 2#2, cfgNumElements := 16#64, cfgNumHashes := 4#32, configured := true, epw := 16#8, numWords := 1#32 }

/-- Not configured, about to be configured COUNTING with N = 10 and k = 3 (CTL-6). -/
def ready : State := { State.reset with cfgMode := 2#2, cfgNumElements := 10#64, cfgNumHashes := 3#32 }

/-! Well-formedness and decoding (30_encoding.md R90 to R94). -/

theorem test_reserved_bit_is_illegal : commandReservedClear 0x0000_0000_0000_0100#64 = false ∧
    commandLegal 0x0000_0000_0000_0130#64 = false ∧ commandLegal 0x8000_0000_0000_0000#64 = false := by decide

theorem test_unassigned_opcode_is_illegal : commandOpcodeAssigned 0x0000_0000_0000_0004#64 = false ∧
    commandLegal 0x0000_0000_0000_00FF#64 = false := by decide

theorem test_build_without_words_is_illegal :
    Build.legal { width := .w64, maxWords := 0#32 } = false ∧ Build.legal Config.vectorBuild = true := by decide

theorem test_listed_words_are_legal : commandLegal 0x0000_0000_0000_0032#64 = true ∧ Instr.wellFormed .fltContains = true := by
  decide

/-- The control family, written out from the rows of R93. -/
theorem test_decode_control : decode 0x0000_0000_0000_0000#64 = .ok .nop ∧ decode 0x0000_0000_0000_0001#64 = .ok .configure ∧
    decode 0x0000_0000_0000_0002#64 = .ok .release ∧ decode 0x0000_0000_0000_0003#64 = .ok .clearErr := by decide

/-- The counter vector family. -/
theorem test_decode_vector : decode 0x0000_0000_0000_0010#64 = .ok .vecGet ∧ decode 0x0000_0000_0000_0011#64 = .ok .vecSet ∧
    decode 0x0000_0000_0000_0012#64 = .ok .vecInc ∧ decode 0x0000_0000_0000_0013#64 = .ok .vecDec ∧
    decode 0x0000_0000_0000_0014#64 = .ok .vecReadWord := by decide

/-- The hash stream family. -/
theorem test_decode_stream : decode 0x0000_0000_0000_0020#64 = .ok .hsLoad ∧ decode 0x0000_0000_0000_0021#64 = .ok .hsNext := by
  decide

/-- The membership tester family. -/
theorem test_decode_filter : decode 0x0000_0000_0000_0030#64 = .ok .fltAdd ∧ decode 0x0000_0000_0000_0031#64 = .ok .fltRemove ∧
    decode 0x0000_0000_0000_0032#64 = .ok .fltContains := by decide

/-- CTL-10 to CTL-12, and a word with only bit 63 set. -/
theorem test_decode_illegal : decode 0x0000_0000_0000_0004#64 = .error .unassignedOpcode ∧
    decode 0x0000_0000_0000_00FF#64 = .error .unassignedOpcode ∧ decode 0x0000_0000_0000_0130#64 = .error .reservedBitsSet ∧
    decode 0x8000_0000_0000_0001#64 = .error .reservedBitsSet := by decide

theorem test_table_words : decodeTableWord 64 0x14 = some .vecReadWord ∧ decodeTableWord 8 0x21 = some .hsNext ∧
    decodeTableWord 64 0x04 = none := by decide

/-- A placed command is the first thing the machine performs after reset (R97: W 0x78). -/
theorem test_placed_command_runs : gives (step (State.reset.withFetchWord 64 0x20)) (fun t => t.hsValid) = true := by decide

/-! The commands, one step each, with the vectors of 95_test_vectors.md. -/

/-- CTL-23. -/
theorem test_nop : gives (exec .nop { counting with err := 9#4, errSticky := true, errOp := 0x30#8 })
    (fun t => statusWord t == 0x3005#64) = true := by decide

/-- CTL-6. -/
theorem test_configure_counting : gives (exec .configure { ready with err := 7#4, errSticky := true, errOp := 1#8 })
    (fun t => statusWord t == 0x0105#64 && regRead t .geom == 0x0000_0001_0000_0010#64) = true := by decide

/-- CTL-17 to CTL-19: one word too many, exactly MAX_WORDS, and a ceiling that must not wrap. -/
theorem test_configure_capacity :
    gives (exec .configure { State.reset with cfgElementBits := 1#8, cfgNumElements := 524289#64 })
      (fun t => statusWord t == 0x0164#64) = true ∧
    gives (exec .configure { State.reset with cfgElementBits := 1#8, cfgNumElements := 524288#64 })
      (fun t => statusWord t == 1#64 && regRead t .geom == 0x0000_2000_0000_0040#64) = true ∧
    gives (exec .configure { State.reset with cfgElementBits := 1#8, cfgNumElements := 0xFFFF_FFFF_FFFF_FFFF#64 })
      (fun t => statusWord t == 0x0164#64) = true := by decide

/-- CTL-22 and CTL-21. -/
theorem test_release : gives (exec .release raw)
      (fun t => regRead t .geom == 0#64 && statusWord t == 0#64 && t.cfgNumElements == 20#64) = true ∧
    gives (exec .release State.reset) (fun t => statusWord t == 0x0224#64) = true := by decide

/-- CTL-24. -/
theorem test_clearErr : gives (exec .clearErr { raw with err := 8#4, errSticky := true, errOp := 0x10#8 })
    (fun t => statusWord t == 1#64) = true := by decide

/-- P1, rows 17 to 19: counter 1 of the word 0x2100… -/
theorem test_vecGet : gives (exec .vecGet { raw with argIndex := 1#64, words := [(0, 0x2100_0000_0000_0000#64)] })
    (fun t => t.result == 1#64) = true := by decide

/-- VEC-16: the full 64-bit index is compared. -/
theorem test_vecGet_index : gives (exec .vecGet { raw with argIndex := 0xFFFF_FFFF_FFFF_FFFF#64 })
    (fun t => statusWord t == 0x1085#64) = true := by decide

/-- VEC-12, its first set. -/
theorem test_vecSet : gives (exec .vecSet { raw with
      argIndex := 5#64, argValue := 9#64, words := [(0, 0x2100_0000_0000_0000#64)] })
    (fun t => t.words == [(0, 0x2100_0900_0000_0000#64)]) = true := by decide

/-- VEC-6: 9 is clamped to 7 and stored in word 1. -/
theorem test_vecSet_clamps : gives (exec .vecSet { raw3 with
      argIndex := 21#64, argValue := 9#64, words := [(0, 0xE000_0000_0000_000A#64), (1, 0x6000_0000_0000_0000#64)] })
    (fun t => t.result == 7#64 && t.words == [(0, 0xE000_0000_0000_000A#64), (1, 0xE000_0000_0000_0000#64)]) = true := by decide

/-- VEC-17: from 14 to 15. -/
theorem test_vecInc : gives (exec .vecInc { raw with argIndex := 3#64, words := [(0, 0x000E_0000_0000_0000#64)] })
    (fun t => t.result == 15#64) = true := by decide

/-- VEC-11: W = S = 64, saturation at 2^64 − 1. -/
theorem test_vecInc_saturates : gives (exec .vecInc { rawWide with words := [(0, 0xFFFF_FFFF_FFFF_FFFF#64)] })
    (fun t => t.result == 0xFFFF_FFFF_FFFF_FFFF#64 && t.words == [(0, 0xFFFF_FFFF_FFFF_FFFF#64)]) = true := by decide

/-- VEC-11, its dec. -/
theorem test_vecDec : gives (exec .vecDec { rawWide with words := [(0, 0xFFFF_FFFF_FFFF_FFFF#64)] })
    (fun t => t.result == 0xFFFF_FFFF_FFFF_FFFE#64) = true := by decide

/-- VEC-14: at 0 no counter changes and no error is raised. -/
theorem test_vecDec_saturates : gives (exec .vecDec raw) (fun t => t.result == 0#64 && t.words == [] && t.err == 0#4) = true := by
  decide

/-- VEC-8, its last rdword: S = 8, the value zero-extended. -/
theorem test_vecReadWord : gives (exec .vecReadWord { rawByte with argIndex := 2#64, words := [(0, 0xA8#64), (2, 0xE0#64)] })
    (fun t => t.result == 0xE0#64) = true := by decide

/-- VEC-3: a word index at NUM_WORDS. -/
theorem test_vecReadWord_index : gives (exec .vecReadWord { raw with argIndex := 2#64, result := 1#64 })
    (fun t => statusWord t == 0x1485#64 && t.result == 1#64) = true := by decide

/-- HS-1. -/
theorem test_hsLoad : gives (exec .hsLoad (withDigestA State.reset)) (fun t =>
    t.hsBase == 0x0011_2233_4455_6677#64 && t.hsIncr == 0x4455_6677_8899_AABB#64 && statusWord t == 2#64) = true := by decide

/-- HS-8. -/
theorem test_hsLoad_overlap : gives (exec .hsLoad (withDigestB State.reset)) (fun t =>
    t.hsBase == 0xDEAD_BEEF_0123_4567#64 && t.hsIncr == 0x0123_4567_89AB_CDEF#64) = true := by decide

/-- HS-2, from h_3 to h_4: the sum wraps. -/
theorem test_hsNext : gives (exec .hsNext { State.reset with
      hsValid := true, hsBase := 0xCD11_5599_DE22_66A8#64, hsIncr := 0x4455_6677_8899_AABB#64 })
    (fun t => t.result == 0xCD11_5599_DE22_66A8#64 && t.hsBase == 0x1166_BC11_66BC_1163#64) = true := by decide

/-- HS-3. -/
theorem test_hsNext_unloaded : gives (exec .hsNext State.reset) (fun t => statusWord t == 0x21A4#64) = true := by decide

/-- FLT-1. -/
theorem test_fltAdd : gives (exec .fltAdd counting) (fun t =>
    t.words == [(0, 0x0010_0001_1000_0100#64)] && statusWord t == 3#64 && t.hsBase == 0x1166_BC11_66BC_1163#64) = true := by
  decide

/-- FLT-6: the index 1 twice. -/
theorem test_fltAdd_repeats : gives (exec .fltAdd { counting with cfgNumElements := 10#64, cfgNumHashes := 3#32 })
    (fun t => t.words == [(0, 0x0200_0010_0000_0000#64)]) = true := by decide

/-- FLT-7. -/
theorem test_fltRemove_repeats : gives (exec .fltRemove { counting with
      cfgNumElements := 10#64, cfgNumHashes := 3#32, words := [(0, 0x0200_0010_0000_0000#64)] })
    (fun t => t.words == []) = true := by decide

/-- FLT-11: no removal in BITSET. -/
theorem test_fltRemove_bitset : gives (exec .fltRemove { bits with
      words := [(0, 0x0000_0000_1084_2100#64)], hsValid := true, hsBase := 0x55BC_2288_EF55_BC1E#64 })
    (fun t => statusWord t == 0x3197#64 && t.words == [(0, 0x0000_0000_1084_2100#64)]
      && t.hsBase == 0x55BC_2288_EF55_BC1E#64) = true := by decide

/-- FLT-2, digest A. -/
theorem test_fltContains : gives (exec .fltContains { counting with words := [(0, 0x0010_0001_1000_0100#64)] })
    (fun t => t.result == 1#64) = true := by decide

/-- FLT-2, digest B. -/
theorem test_fltContains_absent : gives (exec .fltContains (withDigestB { counting with words := [(0, 0x0010_0001_1000_0100#64)] }))
    (fun t => t.result == 0#64 && t.hsBase == 0xE33A_D48D_27D2_7D23#64) = true := by decide

/-! The host's side. -/

/-- 70_reset_and_hazards.md R275 and R276 for (10 000, 0.01), SRC-1, with a logarithm that gives the two values needed to 15
digits: ln 100 and ln 2. -/
theorem test_sizing : sizeFilter (fun x => if x = 2 then 693147180559945 / 10 ^ 15 else 460517018598809 / 10 ^ 14) 10000
    (.finite (1 / 100)) = some (95851, 7) := by decide +kernel

/-- CTL-26 and CTL-27: reserved bits read 0. -/
theorem test_reserved_bits_read_zero :
    regRead (regWrite State.reset .cfgMode 0xFFFF_FFFF_FFFF_FFFE#64) .cfgMode = 2#64 ∧
    regRead (regWrite State.reset .cfgElementBits 0x1_0003#64) .cfgElementBits = 3#64 := by decide

/-! Witnesses: for every statement with hypotheses, states and operands that meet them all, each clause at a boundary. -/

/-- The configured states meet the invariant, with and without listed words. -/
theorem witness_invariant : State.reset.inv = true ∧ ready.inv = true ∧ raw.inv = true ∧ raw3.inv = true ∧
    rawWide.inv = true ∧ rawByte.inv = true ∧ bits.inv = true ∧ counting.inv = true := by decide

theorem witness_invariant_listed :
    State.inv { raw with words := [(0, 0x2100_0000_0000_0000#64), (1, 0x000F_0000_0000_0000#64)] } = true ∧
    State.inv { counting with words := [(0, 0x0010_0001_1000_0100#64)] } = true := by decide

/-- The invariant says something: a bit in a slot at or above N, a listed 0, a wrong GEOM. -/
theorem witness_invariant_fails : State.inv { raw with words := [(1, 0x0000_F000_0000_0000#64)] } = false ∧
    State.inv { raw with words := [(0, 0#64)] } = false ∧ State.inv { raw with epw := 15#8 } = false := by decide

theorem witness_ResetRegisterValues : regRead (State.resetOf { width := .w8, maxWords := 8192#32 }) .params =
    0x0000_2000_0000_0008#64 ∧ regRead State.reset .params = 0x0000_2000_0000_0040#64 := by decide

theorem witness_ResetMeetsInvariant : Build.legal { width := .w8, maxWords := 1#32 } = true ∧
    Build.legal { width := .w64, maxWords := 0xFFFF_FFFF#32 } = true := by decide

theorem witness_StepRunsDecodedCommand : (writing counting 0x78 0x32#64).pending = [.access (.write 64 0x78 0x32#64)] ∧
    decode 0x32#64 = .ok .fltContains ∧ asmEvent (.command .fltContains) = .access (.write 64 0x78 0x32#64) := by decide

/-- The first word past an assigned opcode, the last unassigned one, the lowest and the highest reserved bit. -/
theorem witness_IllegalWordRaisesIllegalCommand : decode 0x04#64 = .error .unassignedOpcode ∧
    decode 0xFF#64 = .error .unassignedOpcode ∧ decode 0x100#64 = .error .reservedBitsSet ∧
    decode 0x8000_0000_0000_0000#64 = .error .reservedBitsSet ∧
    gives (step (writing raw 0x78 0x130#64)) (fun t => statusWord t == 0x3015#64) = true := by decide +kernel

theorem witness_ReadReturnsRegisterWithoutSideEffect :
    ({ raw with pending := [.access (.read 64 0x78), .access (.read 64 0x30)] } : State).pending =
      .access (.read 64 (regOffset .cmd)) :: [.access (.read 64 (regOffset .geom))] ∧
    gives (step { raw with pending := [.access (.read 64 0x30)] }) (fun t => t.observed == [0x0000_0002_0000_0010#64]) = true := by
  decide

/-- CTL-7 while configured, at both ends of the range; and a write while not. -/
theorem witness_ConfigurationWritesAreLocked : raw.configured = true ∧ State.reset.configured = false ∧
    gives (step (writing counting 0x28 9#64)) (fun t => t.cfgNumHashes == 4#32) = true ∧
    gives (step (writing counting 0x10 0#64)) (fun t => t.cfgMode == 2#2) = true ∧
    gives (step (writing State.reset 0x10 3#64)) (fun t => t.cfgMode == 3#2) = true ∧
    gives (step (writing State.reset 0x28 3#64)) (fun t => t.cfgNumHashes == 3#32) = true := by decide

theorem witness_OperandWritesStore :
    gives (step (writing raw 0x40 0xFFFF_FFFF_FFFF_FFFF#64)) (fun t => t.argIndex == 0xFFFF_FFFF_FFFF_FFFF#64) = true ∧
    gives (step (writing raw 0x48 1#64)) (fun t => t.argValue == 1#64) = true ∧
    gives (step (writing State.reset 0x50 2#64)) (fun t => t.digest0 == 2#64) = true ∧
    gives (step (writing State.reset 0x58 3#64)) (fun t => t.digest1 == 3#64) = true := by decide

/-- CTL-25, and a storable field while not configured. -/
theorem witness_ReadOnlyAndReservedBits : gives (step (writing raw 0x00 1#64)) (fun t => regRead t .id == regRead raw .id) = true ∧
    gives (step (writing raw 0x70 5#64)) (fun t => t.result == 0#64) = true ∧ State.reset.configured = false := by decide

/-- Around the edges of the window: offsets 0x00 and 0x78 are admitted; 0x80, 0x7C and a 32-bit access are not. -/
theorem witness_OnlyAlignedSixtyFourBitAccessesAdmitted :
    gives (step { raw with pending := [.access (.read 64 0x00)] }) (fun _ => true) = true ∧
    gives (step (writing raw 0x78 0#64)) (fun _ => true) = true ∧
    refusedWith (step { raw with pending := [.access (.read 64 0x80)] }) .busError = true ∧
    refusedWith (step (writing raw 0x7C 0#64)) .busError = true ∧
    refusedWith (step { raw with pending := [.access (.write 32 0x78 0#64)] }) .busError = true := by decide

theorem witness_ResetEventRestoresResetState :
    gives (step { counting with pending := [.reset (some 0x30#64) [.read 64 0x38]] })
      (fun t => t.configured == false && t.digest0 == 0#64 && t.pending == [.heldAtReset (.read 64 0x38)]) = true ∧
    refusedWith (step { raw with pending := [.heldAtReset (.read 64 0x38)] }) .heldAtReset = true := by decide

theorem witness_IdleEngineChangesNothing : counting.pending = [] ∧ State.reset.pending = [] := by decide

theorem witness_ClearErrClearsStickyRecord :
    gives (exec .vecGet { State.reset with errSticky := true, errOp := 0x30#8 })
      (fun t => t.errSticky && t.errOp == 0x10#8 && t.err == 2#4) = true ∧
    gives (exec .nop { State.reset with errSticky := true, errOp := 0x30#8 })
      (fun t => t.errSticky && t.errOp == 0x30#8) = true := by decide

/-- CTL-8, CTL-3, CTL-13 to CTL-16, CTL-4 and CTL-17, CTL-5: each check of CONFIGURE, and what passes them all. -/
theorem witness_ConfigureConstructsStorage :
    gives (exec .configure counting) (fun t => t.err == 3#4) = true ∧
    gives (exec .configure { ready with cfgMode := 3#2 }) (fun t => t.err == 4#4) = true ∧
    gives (exec .configure { ready with cfgMode := 1#2 }) (fun t => t.err == 5#4) = true ∧
    gives (exec .configure { ready with cfgElementBits := 5#8 }) (fun t => t.err == 5#4) = true ∧
    gives (exec .configure { State.reset with cfgElementBits := 0#8 }) (fun t => t.err == 5#4) = true ∧
    gives (exec .configure { State.reset with cfgElementBits := 65#8 }) (fun t => t.err == 5#4) = true ∧
    gives (exec .configure { State.resetOf { width := .w8, maxWords := 1#32 } with cfgElementBits := 9#8 })
      (fun t => t.err == 5#4) = true ∧
    gives (exec .configure { ready with cfgNumElements := 0#64 }) (fun t => t.err == 6#4) = true ∧
    gives (exec .configure { ready with cfgNumElements := 131073#64 }) (fun t => t.err == 6#4) = true ∧
    gives (exec .configure { ready with cfgNumHashes := 0#32 }) (fun t => t.err == 7#4) = true ∧
    gives (exec .configure { ready with cfgNumElements := 131072#64, cfgNumHashes := 1#32 })
      (fun t => t.err == 0#4 && t.numWords == 8192#32) = true ∧
    gives (exec .configure State.reset) (fun t => t.err == 0#4 && regRead t .geom == 0x0000_0000_0000_0010#64) = true := by
  decide

/-- The three rows of R123's table at their upper ends. -/
theorem witness_LegalConfigurationsAreTheTable :
    gives (exec .configure { State.reset with cfgElementBits := 64#8, cfgNumElements := 8192#64 })
      (fun t => t.err == 0#4 && t.epw == 1#8) = true ∧
    gives (exec .configure { ready with cfgMode := 1#2, cfgElementBits := 1#8, cfgNumElements := 524288#64 })
      (fun t => t.err == 0#4 && t.epw == 64#8) = true ∧
    gives (exec .configure { ready with cfgNumElements := 1#64, cfgNumHashes := 0xFFFF_FFFF#32 })
      (fun t => t.err == 0#4 && t.numWords == 1#32) = true := by decide

theorem witness_ReleaseFreesStorage : State.reset.configured = false ∧ counting.configured = true := by decide

theorem witness_ReleaseThenConfigureZeroes : State.inv { raw with words := [(0, 0x2100_0000_0000_0000#64)] } = true ∧
    raw.configured = true ∧ gives (runCommands [.release, .configure] { raw with words := [(0, 0x2100_0000_0000_0000#64)] })
      (fun t => fieldGet t 0 == 0#64 && t.epw == 16#8) = true := by decide

theorem witness_HsNextEmitsAndAdvances : State.reset.hsValid = false ∧
    ({ State.reset with hsValid := true, hsBase := 0xFFFF_FFFF_FFFF_FFFF#64, hsIncr := 1#64 } : State).hsValid = true := by decide

/-- HS-1 and HS-2, with a command between that leaves the stream alone. -/
theorem witness_StreamClosedForm :
    (∀ i ∈ [Instr.hsNext, .nop, .vecGet], i ≠ .hsLoad ∧ i ≠ .fltAdd ∧ i ≠ .fltRemove ∧ i ≠ .fltContains) ∧
    gives (runCommands (.hsLoad :: ([.hsNext, .nop, .vecGet] ++ [.hsNext])) (withDigestA State.reset))
      (fun t => t.result == 0x4466_88AA_CCEF_1132#64) = true := by decide

theorem witness_StreamDependsOnDigestAlone : (withDigestA State.reset).digest0 = counting.digest0 ∧
    (withDigestA State.reset).digest1.extractLsb 63 32 =
      ({ counting with digest1 := 0x8899_AABB_0000_0000#64 } : State).digest1.extractLsb 63 32 := by decide

theorem witness_IncrementOverlapsBase : gives (exec .hsLoad (withDigestB State.reset))
    (fun t => t.hsBase.extractLsb 31 0 == 0x0123_4567#32) = true := by decide

/-- The packing of digest A's sixteen bytes. -/
theorem witness_DigestIsReadBigEndian :
    counting.digest0 = packDigest0 #v[0x00, 0x11, 0x22, 0x33, 0x44, 0x55, 0x66, 0x77, 0x88, 0x99, 0xAA, 0xBB, 0xCC, 0xDD, 0xEE, 0xFF] ∧
    counting.digest1 = packDigest1 #v[0x00, 0x11, 0x22, 0x33, 0x44, 0x55, 0x66, 0x77, 0x88, 0x99, 0xAA, 0xBB, 0xCC, 0xDD, 0xEE, 0xFF] := by
  decide

/-- The three clauses of VEC_GET, VEC_SET, VEC_INC and VEC_DEC: not configured; i = N; i = N − 1, the last counter. -/
theorem witness_VecGetReadsCounter : State.reset.configured = false ∧ raw.configured = true ∧
    raw.numElements ≤ ({ raw with argIndex := 20#64 } : State).argIndex.toNat ∧
    State.inv { raw with argIndex := 19#64 } = true ∧ (19#64 : Word).toNat < raw.numElements := by decide

theorem witness_VecSetClampsAndStores : gives (exec .vecSet { raw with argIndex := 20#64 }) (fun t => t.err == 8#4) = true ∧
    gives (exec .vecSet { raw with argIndex := 19#64, argValue := 16#64 })
      (fun t => t.result == 15#64 && fieldGet t 19 == 15#64 && fieldGet t 18 == 0#64) = true := by decide

theorem witness_VecIncSaturates : gives (exec .vecInc { raw with argIndex := 20#64 }) (fun t => t.err == 8#4) = true ∧
    gives (exec .vecInc { raw with argIndex := 19#64 }) (fun t => t.result == 1#64 && fieldGet t 19 == 1#64) = true := by decide

theorem witness_VecDecSaturates : gives (exec .vecDec { raw with argIndex := 20#64 }) (fun t => t.err == 8#4) = true ∧
    gives (exec .vecDec { raw with argIndex := 19#64, words := [(1, 0x0001_0000_0000_0000#64)] })
      (fun t => t.result == 0#64 && t.words == []) = true := by decide

theorem witness_VecReadWordReturnsWord : raw.numWords.toNat ≤ (2#64 : Word).toNat ∧ (1#64 : Word).toNat < raw.numWords.toNat ∧
    State.inv { raw with argIndex := 1#64 } = true := by decide

theorem witness_SetThenGetReturnsClampedValue :
    State.inv { rawWide with argIndex := 0#64, argValue := 0xFFFF_FFFF_FFFF_FFFF#64 } = true ∧
    gives (runCommands [.vecSet, .vecGet] { raw3 with argIndex := 21#64, argValue := 8#64 })
      (fun t => t.result == 7#64) = true := by decide

theorem witness_CounterCommandsDoNotInterfere : gives (exec .vecInc { raw3 with argIndex := 20#64 })
    (fun t => t.words == [(0, 0x0000_0000_0000_0002#64)]) = true ∧ counterBit raw3 0 0 = false := by decide

theorem witness_RepeatedIncAndDecSaturate : State.inv { rawByte with argIndex := 4#64 } = true ∧
    gives (runCommands (List.replicate 8 .vecInc) { rawByte with argIndex := 4#64 }) (fun t => fieldGet t 4 == 7#64) = true := by
  decide

/-- The padding bit of VEC-4's words, and slot 1 of its word 1, which counter 22 would have. -/
theorem witness_PaddingAndUnusedSlotsReadZero : 0 < raw3.wordBits - raw3.elementBits * raw3.epw.toNat ∧
    1 < raw3.numWords.toNat ∧ 1 < raw3.epw.toNat ∧ raw3.numElements ≤ 1 * raw3.epw.toNat + 1 ∧
    raw3.wordBits - raw3.elementBits * (1 + 1) ≤ 58 ∧ 58 < raw3.wordBits - raw3.elementBits * 1 := by decide

theorem witness_FieldPutReplacesExactlyItsField : 21 < raw3.numElements ∧ (7#64 : Word).toNat ≤ 2 ^ raw3.elementBits - 1 ∧
    memRead (fieldPut raw3 21 7#64) 1 = 0xE000_0000_0000_0000#64 := by decide

/-- FLT-13, FLT-12, FLT-9 and FLT-4's end: the error clauses, a bit set, a counter saturating. -/
theorem witness_FltAddInsertsKey : gives (exec .fltAdd State.reset) (fun t => t.err == 2#4) = true ∧
    gives (exec .fltAdd raw) (fun t => t.err == 9#4) = true ∧
    gives (exec .fltAdd bits) (fun t => fieldGet t 55 == 1#64 && fieldGet t 54 == 0#64) = true ∧
    gives (exec .fltAdd { counting with words := [(0, 0x00F0_000F_F000_0F00#64)] })
      (fun t => t.words == [(0, 0x00F0_000F_F000_0F00#64)]) = true := by decide

theorem witness_FltRemoveDeletesKey : gives (exec .fltRemove State.reset) (fun t => t.err == 2#4) = true ∧
    gives (exec .fltRemove raw) (fun t => t.err == 9#4) = true ∧ gives (exec .fltRemove bits) (fun t => t.err == 9#4) = true ∧
    gives (exec .fltRemove { counting with words := [(0, 0x00F0_000F_F000_0F00#64)] })
      (fun t => t.words == [(0, 0x00E0_000E_E000_0E00#64)]) = true := by decide

theorem witness_FltContainsTestsAllSlots : gives (exec .fltContains State.reset) (fun t => t.err == 2#4) = true ∧
    gives (exec .fltContains raw) (fun t => t.err == 9#4) = true ∧
    gives (exec .fltContains { counting with words := [(0, 0x0010_0001_1000_0000#64)] }) (fun t => t.result == 0#64) = true := by
  decide

/-- The index sequences of 95_test_vectors.md for digest A. -/
theorem witness_FilterSlotsAreHashValuesModN : 1 ≤ counting.numElements ∧ filterSlots counting = [7, 2, 13, 8] ∧
    filterSlots bits = [55, 50, 45, 40, 35] ∧ filterSlots { counting with cfgNumElements := 1#64 } = [0, 0, 0, 0] := by decide

theorem witness_FilterLeavesStreamAsLoadAndNexts : gives (exec .fltRemove counting) (fun t => t.err == 0#4 && t.hsValid) = true ∧
    gives (exec .fltRemove bits) (fun t => t.err != 0#4 && !t.hsValid) = true := by decide

theorem witness_FilterOrderDoesNotMatter : (filterSlots counting).reverse.Perm (filterSlots counting) ∧ counting.inv = true ∧
    counting.configured = true ∧ counting.cfgMode ≠ 0#2 := ⟨List.reverse_perm _, by decide⟩

theorem witness_FiltersNeverRaiseIndexError : gives (exec .fltContains { counting with argIndex := 0xFFFF_FFFF_FFFF_FFFF#64 })
    (fun t => t.err == 0#4) = true ∧ 7 ∈ filterSlots counting := by decide

theorem witness_CountersOnlyLoweredByNamedCommands : lowersCounters (.access (.write 64 0x78 0x12#64)) = false ∧
    lowersCounters (.access (.write 64 0x78 0x31#64)) = true ∧ lowersCounters (.reset none []) = true ∧
    gives (step (writing { raw with argIndex := 19#64 } 0x78 0x12#64)) (fun t => fieldGet t 19 == 1#64) = true := by decide

/-- A key is added, an operand is written and a counter incremented, and the key is still there. -/
theorem witness_NoFalseNegatives :
    gives (exec .fltAdd { counting with pending := [.access (.write 64 0x40 7#64), .access (.write 64 0x78 0x12#64)] })
      (fun a => a.pending.all (fun e => lowersCounters e == false) &&
        gives (step a) fun b => gives (step b) fun u =>
          u.digest0 == counting.digest0 && u.digest1 == counting.digest1 && u.words == [(0, 0x0010_0002_1000_0100#64)]) = true := by
  decide

theorem witness_AddThenRemoveRestoresAbsence : counting.cfgMode = 2#2 ∧ (∀ i ∈ slotIndices counting, fieldGet counting i = 0#64) ∧
    gives (runCommands [.fltAdd, .fltRemove, .fltContains] counting) (fun t => t.result == 0#64) = true := by decide

theorem witness_CommandsWriteOnlyTheirColumns : gives (exec .vecSet { raw with argIndex := 19#64, argValue := 3#64 })
      (fun t => t.err == 0#4) = true ∧ gives (exec .vecSet State.reset) (fun t => t.err != 0#4) = true ∧
    0 ∉ storesTo .vecSet { raw with argIndex := 19#64 } ∧ 1 ∈ storesTo .vecSet { raw with argIndex := 19#64 } := by decide

theorem witness_ErrorsArePrecise : gives (step (writing counting 0x78 0x01#64)) (fun t => t.err != 0#4) = true ∧
    gives (step (writing { counting with errSticky := true, errOp := 0x10#8 } 0x78 0x30#64))
      (fun t => t.err == 0#4 && t.errSticky && t.errOp == 0x10#8) = true := by decide

theorem witness_CommandsRaiseOnlyTheirCodes : gives (exec .hsNext State.reset) (fun t => t.err == 10#4) = true ∧
    gives (exec .release State.reset) (fun t => t.err == 2#4) = true := by decide

/-- Each of the six changes happens. -/
theorem witness_StatusBitsChangeOnlyByNamedEvents :
    gives (step (writing raw 0x78 0x02#64)) (fun t => !t.configured) = true ∧
    gives (step (writing ready 0x78 0x01#64)) (fun t => t.configured) = true ∧
    gives (step { State.reset with hsValid := true, pending := [.reset none []] }) (fun t => !t.hsValid) = true ∧
    gives (step (writing counting 0x78 0x32#64)) (fun t => t.hsValid) = true ∧
    gives (step (writing { raw with errSticky := true } 0x78 0x03#64)) (fun t => !t.errSticky) = true ∧
    gives (step (writing raw 0x78 0x04#64)) (fun t => t.errSticky) = true := by decide

theorem witness_GeometryFixedWhileConfigured : raw.configured = true ∧
    gives (step (writing raw 0x18 5#64)) (fun t => t.configured && t.cfgNumElements == 20#64) = true := by decide

theorem witness_BuildParametersNeverChange : gives (step { rawByte with pending := [.reset none []] })
    (fun t => t.build == rawByte.build) = true := by decide

/-- An operand changes by its own write, and not by a command that uses it. -/
theorem witness_OperandsPersistAcrossCommands : gives (step (writing raw 0x40 7#64)) (fun t => t.argIndex != raw.argIndex) = true ∧
    gives (step (writing raw 0x48 7#64)) (fun t => t.argValue != raw.argValue) = true ∧
    gives (step (writing raw 0x50 7#64)) (fun t => t.digest0 != raw.digest0) = true ∧
    gives (step (writing raw 0x58 7#64)) (fun t => t.digest1 != raw.digest1) = true ∧
    gives (step (writing ready 0x10 1#64)) (fun t => t.cfgMode != ready.cfgMode) = true ∧
    gives (step (writing ready 0x18 7#64)) (fun t => t.cfgNumElements != ready.cfgNumElements) = true ∧
    gives (step (writing ready 0x20 7#64)) (fun t => t.cfgElementBits != ready.cfgElementBits) = true ∧
    gives (step (writing ready 0x28 7#64)) (fun t => t.cfgNumHashes != ready.cfgNumHashes) = true := by decide

theorem witness_StepKeepsTheInvariant : counting.inv = true ∧
    gives (step (writing counting 0x78 0x30#64)) (fun t => t.inv && t.words != []) = true := by decide

/-- A release makes the content unspecified; the same step with another epoch. -/
theorem witness_UnspecifiedStorageIsUnobservable : raw.inv = true ∧
    gives (step (writing raw 0x78 0x02#64)) (fun t => t.storageEpoch == 1) = true ∧
    gives (step (writing { raw with storageEpoch := 5 } 0x78 0x02#64)) (fun t => t.storageEpoch == 6) = true := by decide

theorem witness_EveryCommandCompletes : bits.inv = true ∧ gives (exec .fltAdd bits) (fun t => t.err == 0#4) = true := by decide

theorem witness_SizingRejectsBadInputs : filterConfiguration false 1 (2 ^ 32) = none ∧
    (filterConfiguration true 0 (2 ^ 32 - 1)).isSome = true ∧ sizingInputsAccepted 1 (.finite (1 / 2)) = true ∧
    sizingInputsAccepted 1 (.finite 0) = false ∧ sizingInputsAccepted 1 (.finite 1) = false := by decide +kernel

end Sys2Proof.Tests
end

section
/-! Every step keeps the build parameters (00_scope.md R7): each kind of host event does, and so does idleness. -/

namespace Sys2Proof.Machine

/-- An idle engine changes no state (60_exceptions.md R255). -/
theorem step_of_pending_nil {s : State} (hp : s.pending = []) : step s = .next s := by
  rw [step, performNext, hp]

@[simp] theorem regStore_build (s : State) (r : Reg) (v : Word) : (regStore s r v).build = s.build := by
  cases r <;> rfl

/-- A write is ignored or stored whole (10_state.md R28, R39). -/
theorem regWrite_eq_self_or_regStore (s : State) (r : Reg) (v : Word) :
    regWrite s r v = s ∨ regWrite s r v = regStore s r v := by
  unfold regWrite
  split
  · exact .inr rfl
  · split
    · exact .inl rfl
    · exact .inr rfl
  · exact .inl rfl
  · exact .inl rfl

@[simp] theorem regWrite_build (s : State) (r : Reg) (v : Word) : (regWrite s r v).build = s.build := by
  obtain h | h := regWrite_eq_self_or_regStore s r v <;> simp [h]

@[simp] theorem performRead_build (r : Reg) (s : State) : (performRead r s).build = s.build := rfl

@[simp] theorem performReset_build (held : List Access) (s : State) : (performReset held s).build = s.build := rfl

@[simp] theorem commandEffect_build (i : Instr) (s : State) : (commandEffect i s).build = s.build := by
  cases i <;> simp [commandEffect]

/-- A command keeps the build, whether it fails a check or completes. -/
theorem exec_build {i : Instr} {s t : State} (h : exec i s = .next t) : t.build = s.build := by
  obtain ⟨code, -, rfl⟩ | ⟨-, -, rfl⟩ := exec_cases h
  · exact raiseError_build ..
  · rw [complete_build, commandEffect_build]

/-- Settles O52, by the kinds of step of step_cases. -/
theorem buildParametersNeverChange : Obligations.BuildParametersNeverChange := by
  intro s t h
  cases hp : s.pending with
  | nil =>
    rw [step_of_pending_nil hp] at h
    cases h
    rfl
  | cons e rest =>
    obtain ⟨r, -, rfl⟩ | ⟨r, v, -, -, rfl⟩ | ⟨c, i, -, -, hx⟩ | ⟨c, d, -, -, rfl⟩ | ⟨running, held, -, rfl⟩ :=
      step_cases hp h
    · exact performRead_build ..
    · exact regWrite_build ..
    · exact (exec_build hx :)
    · exact raiseError_build ..
    · exact performReset_build ..

end Sys2Proof.Machine
end

section
/-! What a step on a given host event is: one equation for each kind of event. -/

namespace Sys2Proof.Machine

/-- A step on a pending event is that event, performed without it pending (20_memory.md R70). -/
theorem step_of_pending_cons {s : State} {e : HostEvent} {rest : List HostEvent} (hp : s.pending = e :: rest) :
    step s = performEvent e { s with pending := rest } := by
  rw [step, performNext, hp]

theorem performEvent_read (r : Reg) (s : State) :
    performEvent (.access (.read 64 (regOffset r))) s = .next (performRead r s) := by
  rw [performEvent, performAccess, admitted_regOffset]

theorem performEvent_write {r : Reg} (hr : r ≠ .cmd) (v : Word) (s : State) :
    performEvent (.access (.write 64 (regOffset r) v)) s = .next (regWrite s r v) :=
  performAccess_write hr v s

/-- A legal word written to CMD runs its command (10_state.md R38). -/
theorem performEvent_command {c : Word} {i : Instr} (hd : decode c = .ok i) (s : State) :
    performEvent (commandEvent c) s = exec i s := by
  have : performEvent (commandEvent c) s = performCommand c s := rfl
  rw [this, performCommand, hd]

/-- An illegal word written to CMD takes the error ILLEGAL_COMMAND (30_encoding.md R94). -/
theorem performEvent_illegal {c : Word} {d : DecodeError} (hd : decode c = .error d) (s : State) :
    performEvent (commandEvent c) s = .next (raiseError (opcField c) .illegalCommand s) := by
  have : performEvent (commandEvent c) s = performCommand c s := rfl
  rw [this, performCommand, hd]
  rfl

/-- A write to a register other than CMD, as the next host event. -/
theorem step_write {s : State} {rest : List HostEvent} {r : Reg} (hr : r ≠ .cmd) {v : Word}
    (hp : s.pending = .access (.write 64 (regOffset r) v) :: rest) :
    step s = .next (regWrite { s with pending := rest } r v) := by
  rw [step_of_pending_cons hp, performEvent_write hr]

/-- A locked register ignores a write while configured (10_state.md R28). -/
theorem regWrite_of_locked {s : State} (hc : s.configured = true) {r : Reg} (hr : accessType r = .lockedReadWrite)
    (v : Word) : regWrite s r v = s := by
  simp [regWrite, hr, hc]

/-- A locked register stores a write while not configured (10_state.md R28). -/
theorem regWrite_of_unlocked {s : State} (hc : s.configured = false) {r : Reg} (hr : accessType r = .lockedReadWrite)
    (v : Word) : regWrite s r v = regStore s r v := by
  simp [regWrite, hr, hc]

theorem step_write_of_locked {s : State} {rest : List HostEvent} {r : Reg} {v : Word} (hc : s.configured = true)
    (hr : accessType r = .lockedReadWrite) (hp : s.pending = .access (.write 64 (regOffset r) v) :: rest) :
    step s = .next { s with pending := rest } := by
  rw [step_write (by rintro rfl; cases hr) hp]
  exact congrArg Host.Outcome.next (regWrite_of_locked (s := { s with pending := rest }) hc hr v)

theorem step_write_of_unlocked {s : State} {rest : List HostEvent} {r : Reg} {v : Word} (hc : s.configured = false)
    (hr : accessType r = .lockedReadWrite) (hp : s.pending = .access (.write 64 (regOffset r) v) :: rest) :
    step s = .next (regStore { s with pending := rest } r v) := by
  rw [step_write (by rintro rfl; cases hr) hp]
  exact congrArg Host.Outcome.next (regWrite_of_unlocked (s := { s with pending := rest }) hc hr v)

/-- A read-only register ignores a write (10_state.md R39). -/
theorem step_write_of_readOnly {s : State} {rest : List HostEvent} {r : Reg} {v : Word}
    (hr : accessType r = .readOnly) (hp : s.pending = .access (.write 64 (regOffset r) v) :: rest) :
    step s = .next { s with pending := rest } := by
  rw [step_write (by rintro rfl; cases hr) hp, regWrite, hr]

end Sys2Proof.Machine
end

section
/-! Every step keeps the invariant of 10_state.md R46. The invariant does not see the host's side, the hash stream, the
operands or RESULT, so that what is left is CONFIGURE, the storage updates, ERR and the locked configuration writes. -/

namespace Sys2Proof.Machine

/-- The converse of inv_parts. -/
theorem inv_of_parts {s : State}
    (h : s.build.legal = true ∧ geometryOk s = true ∧ storageOk s = true ∧ s.err.toNat ≤ 10) : s.inv = true := by
  simpa [State.inv, and_assoc] using h

theorem errorBits_le (code : ErrorCode) : (errorBits code).toNat ≤ 10 := by cases code <;> decide

/-- An error taken changes nothing of the invariant but ERR (60_exceptions.md R241, R243). -/
theorem inv_raiseError {s : State} (h : s.inv = true) (op : Byte) (code : ErrorCode) :
    (raiseError op code s).inv = true := by
  obtain ⟨hb, hg, hs, -⟩ := inv_parts h
  exact inv_of_parts ⟨hb, hg, hs, errorBits_le code⟩

theorem inv_complete {s : State} (h : s.inv = true) : (complete s).inv = true := by
  obtain ⟨hb, hg, hs, -⟩ := inv_parts h
  exact inv_of_parts ⟨hb, hg, hs, Nat.zero_le _⟩

theorem storageOk_of_words_nil {s : State} (hw : s.words = []) : storageOk s = true := by
  rw [storageOk_iff, hw]
  exact ⟨Memory.wf_nil, by simp⟩

/-- While not configured no storage word is listed, and GEOM is 0. -/
theorem inv_unconfigured {s : State} (h : s.inv = true) (hc : s.configured = false) :
    s.epw = 0#8 ∧ s.numWords = 0#32 ∧ s.words = [] := by
  obtain ⟨-, hg, hs, -⟩ := inv_parts h
  obtain ⟨he, hn⟩ : s.epw = 0#8 ∧ s.numWords = 0#32 := by simpa [geometryOk, hc] using hg
  refine ⟨he, hn, List.eq_nil_iff_forall_not_mem.2 fun c hm => ?_⟩
  have := (((storageOk_iff s).1 hs).2 c hm).1
  simp [hn] at this

/-- A state without storage meets the invariant, whatever its configuration registers hold. -/
theorem inv_of_no_storage {s : State} (hb : s.build.legal = true) (hc : s.configured = false) (he : s.epw = 0#8)
    (hn : s.numWords = 0#32) (hw : s.words = []) (herr : s.err.toNat ≤ 10) : s.inv = true :=
  inv_of_parts ⟨hb, by simp [geometryOk, hc, he, hn], storageOk_of_words_nil hw, herr⟩

theorem inv_resetOf {b : Build} (hb : b.legal = true) : (State.resetOf b).inv = true :=
  inv_of_no_storage hb rfl rfl rfl rfl (Nat.zero_le _)

theorem inv_dropStorage {s : State} (h : s.inv = true) : (dropStorage s).inv = true := by
  obtain ⟨hb, -, -, herr⟩ := inv_parts h
  exact inv_of_no_storage hb rfl rfl rfl rfl herr

/-- What CONFIGURE's checks establish (40_control.md R122, R123). -/
theorem configureCheck_none {s : State} (h : configureCheck s = none) :
    s.configured = false ∧ s.mode ≠ .reserved ∧ widthLegal s = true ∧ configNumWords s ≤ s.build.maxWords.toNat ∧
      (s.mode = .raw ∨ s.numElements ≠ 0 ∧ s.numHashes ≠ 0) := by
  unfold configureCheck at h
  split_ifs at h with hc hm hw hn hx hk
  simp only [Bool.not_eq_true, Bool.not_eq_false, not_lt, not_and_or, ne_eq, not_not] at *
  tauto

/-- GEOM's EPW field holds S div W. -/
theorem toNat_configEpw (s : State) : (BitVec.ofNat 8 (configEpw s)).toNat = configEpw s := by
  have hd : configEpw s ≤ s.wordBits := Nat.div_le_self ..
  have hs := wordBits_le s
  rw [BitVec.toNat_ofNat, Nat.mod_eq_of_lt (by omega)]

/-- CONFIGURE builds the geometry of a legal configuration. -/
theorem inv_construct {s : State} (h : s.inv = true) (hk : configureCheck s = none) : (construct s).inv = true := by
  obtain ⟨hb, -, -, herr⟩ := inv_parts h
  obtain ⟨-, -, hw, hx, hf⟩ := configureCheck_none hk
  have hnw : (BitVec.ofNat 32 (configNumWords s)).toNat = configNumWords s := by
    rw [BitVec.toNat_ofNat, Nat.mod_eq_of_lt (hx.trans_lt s.build.maxWords.isLt)]
  have hg : configurationOk (construct s) = true := by
    simp only [configurationOk, Bool.and_eq_true, Bool.or_eq_true, decide_eq_true_eq]
    exact ⟨hw, toNat_configEpw s, hnw, hx, hf⟩
  exact inv_of_parts ⟨hb, hg, storageOk_of_words_nil rfl, herr⟩

/-- Updates of counters below N keep the invariant. -/
theorem inv_foldl_updateSlot {f : Word → Word} {l : List Nat} {s : State} (h : s.inv = true) (hc : s.configured = true)
    (hf : Keeps s.elementBits f) (hl : ∀ i ∈ l, i < s.numElements) : (l.foldl (updateSlot f) s).inv = true := by
  obtain ⟨hb, hg, hs, herr⟩ := inv_parts h
  have hst := foldl_updateSlot_keeps_storageOk l (Layout.of_inv h hc) hf hl hs
  rw [foldl_updateSlot_eq] at hst ⊢
  exact inv_of_parts ⟨hb, hg, hst, herr⟩

theorem inv_updateSlot_indexOperand {f : Word → Word} {s : State} (h : s.inv = true) (hk : indexCheck s = none)
    (hf : Keeps s.elementBits f) : (updateSlot f s (indexOperand s)).inv = true := by
  obtain ⟨hc, hi⟩ := indexCheck_none hk
  exact inv_foldl_updateSlot (l := [indexOperand s]) h hc hf (by simpa using hi)

theorem toNat_fieldMask_succ {s : State} (h : Layout s) : s.fieldMask.toNat + 1 = 2 ^ s.elementBits := by
  have := Nat.two_pow_pos s.elementBits
  rw [toNat_fieldMask h.widthLe64]
  omega

/-- A clamped value fits in W bits (42_counter_vector.md R177). -/
theorem toNat_clampToMax_lt {s : State} (h : Layout s) (v : Word) : (clampToMax s v).toNat < 2 ^ s.elementBits := by
  have hm := toNat_fieldMask_succ h
  unfold clampToMax
  split
  · omega
  · rename_i hle
    rw [BitVec.lt_def] at hle
    omega

/-- The effect of a command whose checks pass keeps the invariant. -/
theorem inv_commandEffect {i : Instr} {s : State} (h : s.inv = true) (hk : commandCheck i s = none) :
    (commandEffect i s).inv = true := by
  cases i with
  | nop | clearErr | vecGet | vecReadWord | hsLoad | hsNext | fltContains => exact h
  | configure => exact inv_construct h hk
  | release => exact inv_dropStorage h
  | vecSet =>
    have hl := Layout.of_inv h (indexCheck_none hk).1
    exact inv_updateSlot_indexOperand (f := fun _ => clampToMax s s.argValue) h hk fun _ _ => toNat_clampToMax_lt hl _
  | vecInc =>
    have hl := Layout.of_inv h (indexCheck_none hk).1
    exact inv_updateSlot_indexOperand h hk (keeps_saturatingInc (toNat_fieldMask_succ hl))
  | vecDec => exact inv_updateSlot_indexOperand h hk (keeps_saturatingDec _)
  | fltAdd =>
    obtain ⟨hc, hm⟩ := filterCheck_none hk
    exact inv_foldl_updateSlot h hc (keeps_addUpdate h hc hm) fun _ => filterSlots_lt (inv_filter h hc hm).1
  | fltRemove =>
    obtain ⟨hc, hm, -⟩ := removeCheck_none hk
    exact inv_foldl_updateSlot h hc (keeps_saturatingDec _) fun _ => filterSlots_lt (inv_filter h hc hm).1

/-- Every command keeps the invariant, whether it fails a check or completes. -/
theorem inv_exec {i : Instr} {s t : State} (h : s.inv = true) (hx : exec i s = .next t) : t.inv = true := by
  obtain ⟨code, -, rfl⟩ | ⟨hk, -, rfl⟩ := exec_cases hx
  · exact inv_raiseError h ..
  · exact inv_complete (inv_commandEffect h hk)

/-- A host write keeps the invariant: the registers it reads are locked while there is storage (10_state.md R28). -/
theorem inv_regWrite {s : State} (h : s.inv = true) (r : Reg) (v : Word) : (regWrite s r v).inv = true := by
  cases hc : s.configured with
  | true =>
    cases r with
    | cfgMode | cfgNumElements | cfgElementBits | cfgNumHashes => rwa [regWrite_of_locked hc rfl]
    | _ => exact h
  | false =>
    obtain ⟨hb, -, -, herr⟩ := inv_parts h
    obtain ⟨he, hn, hw⟩ := inv_unconfigured h hc
    obtain heq | heq := regWrite_eq_self_or_regStore s r v <;> rw [heq]
    · exact h
    · cases r <;> exact inv_of_no_storage hb hc he hn hw herr

/-- Settles O54, by the kinds of step of step_cases. -/
theorem stepKeepsTheInvariant : Obligations.StepKeepsTheInvariant := by
  intro s t h hstep
  cases hp : s.pending with
  | nil =>
    rw [step_of_pending_nil hp] at hstep
    cases hstep
    exact h
  | cons e rest =>
    have hrest : ({ s with pending := rest } : State).inv = true := h
    obtain ⟨r, -, rfl⟩ | ⟨r, v, -, -, rfl⟩ | ⟨c, i, -, -, hx⟩ | ⟨c, d, -, -, rfl⟩ | ⟨running, held, -, rfl⟩ :=
      step_cases hp hstep
    · exact h
    · exact inv_regWrite hrest r v
    · exact inv_exec hrest hx
    · exact inv_raiseError hrest ..
    · exact inv_resetOf (inv_parts h).1

/-- Settles O2. -/
theorem resetMeetsInvariant : Obligations.ResetMeetsInvariant :=
  ⟨fun _ => inv_resetOf, inv_resetOf (by decide)⟩

end Sys2Proof.Machine
end

section
/-! What unspecified storage holds is not observable (10_state.md R48): moving the epoch of the free value commutes with
every step from a state that meets the invariant, because every word a command reads is in use. -/

namespace Sys2Proof.Machine

/-- `s` with other unspecified storage contents: the epoch of the free value moved on by `d` (log 3). -/
def shiftEpoch (d : Nat) (s : State) : State := { s with storageEpoch := s.storageEpoch + d }

/-- A word in use reads the same in every epoch. -/
theorem memRead_shiftEpoch {s : State} {j : Nat} (hj : s.inUse j = true) (d : Nat) :
    memRead (shiftEpoch d s) j = memRead s j := by
  have hj' : (shiftEpoch d s).inUse j = true := hj
  rw [memRead, memRead, if_pos hj, if_pos hj']
  rfl

theorem Layout.fieldGet_shiftEpoch {s : State} (h : Layout s) {i : Nat} (hi : i < s.numElements) (d : Nat) :
    fieldGet (shiftEpoch d s) i = fieldGet s i :=
  congrArg (fun w : Word => (w >>> fieldLsb s i) &&& s.fieldMask) (memRead_shiftEpoch (h.inUse hi) d)

theorem memWrite_shiftEpoch (s : State) (j : Nat) (v : Word) (d : Nat) :
    memWrite (shiftEpoch d s) j v = shiftEpoch d (memWrite s j v) := by
  cases hj : s.inUse j with
  | false =>
    have hj' : (shiftEpoch d s).inUse j = false := hj
    simp [memWrite, hj, hj']
  | true =>
    have hj' : (shiftEpoch d s).inUse j = true := hj
    simp only [memWrite, hj, hj', if_true]
    rfl

theorem Layout.fieldPut_shiftEpoch {s : State} (h : Layout s) {i : Nat} (hi : i < s.numElements) (v : Word) (d : Nat) :
    Machine.fieldPut (shiftEpoch d s) i v = shiftEpoch d (Machine.fieldPut s i v) := by
  have hr : memRead (shiftEpoch d s) (wordIndex (shiftEpoch d s) i) = memRead s (wordIndex s i) :=
    memRead_shiftEpoch (h.inUse hi) d
  rw [Machine.fieldPut, hr]
  exact memWrite_shiftEpoch ..

theorem Layout.updateSlot_shiftEpoch {s : State} (h : Layout s) (f : Word → Word) {i : Nat} (hi : i < s.numElements)
    (d : Nat) : Machine.updateSlot f (shiftEpoch d s) i = shiftEpoch d (Machine.updateSlot f s i) := by
  rw [Machine.updateSlot, h.fieldGet_shiftEpoch hi, h.fieldPut_shiftEpoch hi]
  rfl

theorem Layout.foldl_updateSlot_shiftEpoch (f : Word → Word) (l : List Nat) {s : State} (h : Layout s)
    (hl : ∀ i ∈ l, i < s.numElements) (d : Nat) :
    l.foldl (Machine.updateSlot f) (shiftEpoch d s) = shiftEpoch d (l.foldl (Machine.updateSlot f) s) := by
  induction l generalizing s with
  | nil => rfl
  | cons i l ih =>
    have hn : (Machine.updateSlot f s i).numElements = s.numElements := numElements_fieldPut ..
    rw [List.foldl_cons, List.foldl_cons, h.updateSlot_shiftEpoch f (hl i (by simp))]
    exact ih (h.updateSlot f i) fun k hk => hn ▸ hl k (List.mem_cons_of_mem _ hk)

theorem Layout.foldl_testSlot_shiftEpoch (l : List Nat) {s : State} (h : Layout s) (hl : ∀ i ∈ l, i < s.numElements)
    (r : Word) (d : Nat) : l.foldl (testSlot (shiftEpoch d s)) r = l.foldl (testSlot s) r := by
  rw [foldl_testSlot, foldl_testSlot]
  congr 1
  exact propext (forall₂_congr fun i hi => by rw [h.fieldGet_shiftEpoch (hl i hi)])

/-- The storage is released in the moved epoch as in the other (40_control.md R124). -/
theorem dropStorage_shiftEpoch (s : State) (d : Nat) : dropStorage (shiftEpoch d s) = shiftEpoch d (dropStorage s) := by
  simp [dropStorage, shiftEpoch, Nat.add_right_comm]

theorem performReset_shiftEpoch (held : List Access) (s : State) (d : Nat) :
    performReset held (shiftEpoch d s) = shiftEpoch d (performReset held s) := by
  simp [performReset, shiftEpoch, Nat.add_right_comm]

/-- A command whose checks pass has the same effect in every epoch: the words it reads are in use. -/
theorem commandEffect_shiftEpoch {i : Instr} {s : State} (h : s.inv = true) (hk : commandCheck i s = none) (d : Nat) :
    commandEffect i (shiftEpoch d s) = shiftEpoch d (commandEffect i s) := by
  cases i with
  | nop | configure | clearErr | hsLoad | hsNext => rfl
  | release => exact dropStorage_shiftEpoch s d
  | vecGet =>
    obtain ⟨hc, hi⟩ := indexCheck_none hk
    exact congrArg (fun v => setResult v (shiftEpoch d s)) ((Layout.of_inv h hc).fieldGet_shiftEpoch hi d)
  | vecSet =>
    obtain ⟨hc, hi⟩ := indexCheck_none hk
    exact congrArg (setResult _) ((Layout.of_inv h hc).fieldPut_shiftEpoch hi _ d)
  | vecInc =>
    obtain ⟨hc, hi⟩ := indexCheck_none hk
    have hl := Layout.of_inv h hc
    exact congrArg₂ (fun v t => setResult (saturatingInc s.fieldMask v) t) (hl.fieldGet_shiftEpoch hi d)
      (hl.updateSlot_shiftEpoch _ hi d)
  | vecDec =>
    obtain ⟨hc, hi⟩ := indexCheck_none hk
    have hl := Layout.of_inv h hc
    exact congrArg₂ (fun v t => setResult (saturatingDec v) t) (hl.fieldGet_shiftEpoch hi d)
      (hl.updateSlot_shiftEpoch _ hi d)
  | vecReadWord =>
    obtain ⟨hc, hi⟩ := wordIndexCheck_none hk
    have hj : s.inUse (indexOperand s) = true := by simp [State.inUse, hc, hi]
    exact congrArg (fun v => setResult v (shiftEpoch d s)) (memRead_shiftEpoch hj d)
  | fltAdd =>
    obtain ⟨hc, hm⟩ := filterCheck_none hk
    exact congrArg (filterStream s) ((Layout.of_inv h hc).foldl_updateSlot_shiftEpoch _ _
      (fun _ => filterSlots_lt (inv_filter h hc hm).1) d)
  | fltRemove =>
    obtain ⟨hc, hm, -⟩ := removeCheck_none hk
    exact congrArg (filterStream s) ((Layout.of_inv h hc).foldl_updateSlot_shiftEpoch _ _
      (fun _ => filterSlots_lt (inv_filter h hc hm).1) d)
  | fltContains =>
    obtain ⟨hc, hm⟩ := filterCheck_none hk
    exact congrArg (fun v => filterStream s (setResult v (shiftEpoch d s)))
      ((Layout.of_inv h hc).foldl_testSlot_shiftEpoch _ (fun _ => filterSlots_lt (inv_filter h hc hm).1) _ d)

theorem commandCheck_shiftEpoch (i : Instr) (s : State) (d : Nat) :
    commandCheck i (shiftEpoch d s) = commandCheck i s := by
  cases i <;> rfl

theorem commandWords_shiftEpoch (i : Instr) (s : State) (d : Nat) :
    commandWords i (shiftEpoch d s) = commandWords i s := by
  cases i <;> rfl

/-- A command gives the same next state in every epoch, the epoch apart. -/
theorem exec_shiftEpoch {i : Instr} {s t : State} (h : s.inv = true) (hx : exec i s = .next t) (d : Nat) :
    exec i (shiftEpoch d s) = .next (shiftEpoch d t) := by
  have hck := commandCheck_shiftEpoch i s d
  obtain ⟨code, hk, rfl⟩ | ⟨hk, hw, rfl⟩ := exec_cases hx
  · exact exec_of_check (hck.trans hk)
  · rw [exec_of_ok (hck.trans hk) (by rw [commandWords_shiftEpoch]; exact hw), commandEffect_shiftEpoch h hk]
    rfl

theorem regWrite_shiftEpoch (s : State) (r : Reg) (v : Word) (d : Nat) :
    regWrite (shiftEpoch d s) r v = shiftEpoch d (regWrite s r v) := by
  have hst : regStore (shiftEpoch d s) r v = shiftEpoch d (regStore s r v) := by cases r <;> rfl
  have hc : (shiftEpoch d s).configured = s.configured := rfl
  unfold regWrite
  rw [hst, hc]
  split
  · rfl
  · split <;> rfl
  · rfl
  · rfl

/-- Settles O55: each kind of step of step_cases commutes with moving the epoch. -/
theorem unspecifiedStorageIsUnobservable : Obligations.UnspecifiedStorageIsUnobservable := by
  intro s t d h hstep
  show step (shiftEpoch d s) = .next (shiftEpoch d t)
  cases hp : s.pending with
  | nil =>
    rw [step_of_pending_nil hp] at hstep
    cases hstep
    exact step_of_pending_nil hp
  | cons e rest =>
    have hrest : ({ s with pending := rest } : State).inv = true := h
    have hshift : step (shiftEpoch d s) = performEvent e (shiftEpoch d { s with pending := rest }) :=
      step_of_pending_cons hp
    rw [hshift]
    obtain ⟨r, rfl, rfl⟩ | ⟨r, v, hr, rfl, rfl⟩ | ⟨c, i, rfl, hd, hx⟩ | ⟨c, f, rfl, hd, rfl⟩ | ⟨running, held, rfl, rfl⟩ :=
      step_cases hp hstep
    · exact performEvent_read ..
    · rw [performEvent_write hr]
      exact congrArg Host.Outcome.next (regWrite_shiftEpoch _ r v d)
    · rw [performEvent_command hd]
      exact exec_shiftEpoch hrest hx d
    · exact performEvent_illegal hd _
    · exact congrArg Host.Outcome.next (performReset_shiftEpoch held _ d)

end Sys2Proof.Machine
end

section
/-! A step runs the command that the word written to CMD decodes to (10_state.md R38). -/

namespace Sys2Proof.Machine

theorem decode_encode (i : Instr) : decode (encode i) = .ok i := by
  cases i <;> decide

/-- The opcode map read backwards, byte by byte (30_encoding.md R93). -/
theorem opcode_of_instrOfOpcode : ∀ b : Byte, ∀ i ∈ instrOfOpcode b, opcode i = b := by decide

/-- A word that decodes is the encoding of its command: RSV is 0 and OPC the command's own (30_encoding.md R93). -/
theorem eq_encode_of_decode {c : Word} {i : Instr} (h : decode c = .ok i) : c = encode i := by
  unfold decode at h
  split at h
  · rename_i hrsv
    split at h
    · rename_i hj
      cases h
      rw [encode, opcode_of_instrOfOpcode _ i hj]
      apply BitVec.eq_of_getLsbD_eq
      intro b hb
      rw [getLsbD_place, opcField, getLsbD_field]
      by_cases h8 : b < 8
      · simp [hb, h8]
      · have hz := congrArg (fun w => w.getLsbD (b - 8)) hrsv
        have hr : b - 8 < 56 := by omega
        have hs : 8 + (b - 8) = b := by omega
        simpa [rsvField, hr, hs, hb, h8] using hz
    · cases h
  · cases h

/-- Settles O5. -/
theorem stepRunsDecodedCommand : Obligations.StepRunsDecodedCommand := by
  have run : ∀ {s : State} {rest : List HostEvent} {c : Word} {i : Instr}, s.pending = commandEvent c :: rest →
      decode c = .ok i → step s = exec i { s with pending := rest } := fun hp hd => by
    rw [step_of_pending_cons hp, performEvent_command hd]
  refine ⟨fun _ _ _ _ hp hd => run hp hd, fun s i => ?_, fun _ _ i hp => run hp (decode_encode i)⟩
  have hw : BitVec.ofNat 64 ((encode i).toNat % 2 ^ 64) = encode i := by
    rw [Nat.mod_eq_of_lt (encode i).isLt, BitVec.ofNat_toNat, BitVec.setWidth_eq]
  rw [State.withFetchWord, hw]
  exact run rfl (decode_encode i)

end Sys2Proof.Machine
end

section
/-! The register window: what a host write stores, what a host read returns, and what reset leaves (10_state.md R21 to R47). -/

namespace Sys2Proof.Machine

/-- Settles O9. -/
theorem configurationWritesAreLocked : Obligations.ConfigurationWritesAreLocked := by
  intro s rest v
  refine ⟨fun hc offset ho hp => ?_, fun hc => ⟨fun hp => ?_, fun hp => ?_, fun hp => ?_, fun hp => ?_⟩⟩
  · simp only [List.mem_cons, List.not_mem_nil, or_false] at ho
    obtain rfl | rfl | rfl | rfl := ho
    · exact step_write_of_locked (r := .cfgMode) hc rfl hp
    · exact step_write_of_locked (r := .cfgNumElements) hc rfl hp
    · exact step_write_of_locked (r := .cfgElementBits) hc rfl hp
    · exact step_write_of_locked (r := .cfgNumHashes) hc rfl hp
  · exact step_write_of_unlocked (r := .cfgMode) hc rfl hp
  · exact step_write_of_unlocked (r := .cfgNumElements) hc rfl hp
  · exact step_write_of_unlocked (r := .cfgElementBits) hc rfl hp
  · exact step_write_of_unlocked (r := .cfgNumHashes) hc rfl hp

/-- Settles O10. -/
theorem operandWritesStore : Obligations.OperandWritesStore := by
  refine fun s rest v => ⟨fun hp => ?_, fun hp => ?_, fun hp => ?_, fun hp => ?_⟩
  · exact step_write (r := .argIndex) (by decide) hp
  · exact step_write (r := .argValue) (by decide) hp
  · exact step_write (r := .digest0) (by decide) hp
  · exact step_write (r := .digest1) (by decide) hp

/-- PARAMS and GEOM have one shape, a field in [63:32] and one in [7:0] (10_state.md R23, R29). -/
theorem place_or_place_eq_append (a : BitVec 32) (b : BitVec 8) : place a 32 ||| place b 0 = a ++ 0#24 ++ b := by
  apply BitVec.eq_of_getLsbD_eq
  intro n hn
  rw [BitVec.getLsbD_or, getLsbD_place, getLsbD_place, BitVec.getLsbD_append, BitVec.getLsbD_append]
  by_cases h8 : n < 8
  · have h32 : ¬ 32 ≤ n := by omega
    simp [h8, h32, hn]
  · have hb : b.getLsbD n = false := BitVec.getLsbD_of_ge _ _ (by omega)
    by_cases h32 : n < 32
    · have h24 : n - 8 < 24 := by omega
      have h32' : ¬ 32 ≤ n := by omega
      simp [h8, h24, h32', hb]
    · have h24 : ¬ n - 8 < 24 := by omega
      have hs : n - 8 - 24 = n - 32 := by omega
      simp [h8, h24, hs, hn, hb, Nat.le_of_not_lt h32]

/-- The two fields read back, and the reserved bits between them. -/
theorem fields_place_or_place (a : BitVec 32) (b : BitVec 8) :
    (place a 32 ||| place b 0).extractLsb 7 0 = b ∧ (place a 32 ||| place b 0).extractLsb 31 8 = 0#24 ∧
      (place a 32 ||| place b 0).extractLsb 63 32 = a := by
  refine ⟨?_, ?_, ?_⟩ <;> simp [field_or, field_place, field_place_outside]

/-- The fields of STATUS and its reserved bits (10_state.md R30). -/
theorem fields_statusWord (s : State) :
    (statusWord s).getLsbD 0 = s.configured ∧ (statusWord s).getLsbD 1 = s.hsValid ∧
    (statusWord s).getLsbD 2 = s.errSticky ∧ (statusWord s).getLsbD 3 = false ∧
    (statusWord s).extractLsb 7 4 = s.err ∧ (statusWord s).extractLsb 15 8 = s.errOp ∧
    (statusWord s).extractLsb 63 16 = 0#48 := by
  refine ⟨?_, ?_, ?_, ?_, ?_, ?_, ?_⟩
  · simp [statusWord]
  · simp [statusWord]
  · simp [statusWord]
  · simp [statusWord]
  · simp [statusWord, field_or, field_place, field_place_outside]
  · simp [statusWord, field_or, field_place, field_place_outside]
  · simp [statusWord, field_or, field_place_outside]

/-- Settles O8. -/
theorem registerWindowLayout : Obligations.RegisterWindowLayout := by
  refine ⟨rfl, fun s => ?_⟩
  obtain ⟨hw, hr, hm⟩ := fields_place_or_place s.build.maxWords (BitVec.ofNat 8 s.build.width.bits)
  obtain ⟨he, hg, hn⟩ := fields_place_or_place s.numWords s.epw
  refine ⟨(by decide : idWord.extractLsb 63 32 = _), (by decide : idWord.extractLsb 31 16 = _),
    (by decide : idWord.extractLsb 15 0 = _), ?_, hr, hm, he, hg, hn, fields_statusWord s⟩
  have hlt : s.wordBits < 2 ^ 8 := (wordBits_le s).trans_lt (by decide)
  exact (congrArg BitVec.toNat hw).trans ((BitVec.toNat_ofNat ..).trans (Nat.mod_eq_of_lt hlt))

/-- The low bits of a value, taken out and placed back, are the value with the bits above cleared. -/
theorem place_field_zero (v : Word) (n : Nat) : place (v.extractLsb n 0) 0 = v &&& BitVec.ofNat 64 (2 ^ (n + 1) - 1) := by
  apply BitVec.eq_of_getLsbD_eq
  intro b hb
  rw [getLsbD_place, getLsbD_field, BitVec.getLsbD_and, getLsbD_ones]
  simp [hb, Bool.and_comm]

/-- Settles O11. -/
theorem readOnlyAndReservedBits : Obligations.ReadOnlyAndReservedBits := by
  refine ⟨fun s rest v offset ho hp => ?_, fun s => ?_, fun s v hc => ?_⟩
  · simp only [List.mem_cons, List.not_mem_nil, or_false] at ho
    obtain rfl | rfl | rfl | rfl | rfl | rfl | rfl := ho
    · exact step_write_of_readOnly (r := .id) rfl hp
    · exact step_write_of_readOnly (r := .params) rfl hp
    · exact step_write_of_readOnly (r := .geom) rfl hp
    · exact step_write_of_readOnly (r := .status) rfl hp
    · exact step_write_of_readOnly (r := .hsBase) rfl hp
    · exact step_write_of_readOnly (r := .hsIncr) rfl hp
    · exact step_write_of_readOnly (r := .result) rfl hp
  · obtain ⟨-, hparams, -⟩ := fields_place_or_place s.build.maxWords (BitVec.ofNat 8 s.build.width.bits)
    obtain ⟨-, hgeom, -⟩ := fields_place_or_place s.numWords s.epw
    obtain ⟨-, -, -, hs3, -, -, hs16⟩ := fields_statusWord s
    exact ⟨(by decide : idWord.extractLsb 31 16 = _), hparams,
      field_place_outside _ (.inr (by decide)) (by decide), field_place_outside _ (.inr (by decide)) (by decide),
      field_place_outside _ (.inr (by decide)) (by decide), hgeom, hs3, hs16⟩
  · rw [regWrite_of_unlocked hc rfl, regWrite_of_unlocked hc rfl, regWrite_of_unlocked hc rfl,
      regWrite_of_unlocked hc rfl]
    exact ⟨place_field_zero v 1, rfl, place_field_zero v 7, place_field_zero v 31, rfl, rfl, rfl, rfl⟩

/-- Settles O1. -/
theorem resetRegisterValues : Obligations.ResetRegisterValues := by
  rintro b s rfl
  have params : ∀ u : State, regRead u .params = u.build.maxWords ++ 0#24 ++ BitVec.ofNat 8 u.build.width.bits :=
    fun u => place_or_place_eq_append ..
  have mode : regRead (State.resetOf b) .cfgMode = 0#64 := by simp [regRead, State.resetOf, place]
  have geom : regRead (State.resetOf b) .geom = 0#64 := by simp [regRead, geomWord, State.resetOf, place]
  have status : regRead (State.resetOf b) .status = 0#64 := by simp [regRead, statusWord, State.resetOf, place]
  exact ⟨mode, rfl, rfl, rfl, geom, status, rfl, rfl, rfl, rfl, rfl, rfl, rfl, rfl, rfl, rfl, rfl, rfl, rfl, rfl,
    fun u => ⟨rfl, params u⟩⟩

end Sys2Proof.Machine
end

section
/-! Which events change STATUS, the configuration and GEOM (10_state.md R28 to R30). -/

namespace Sys2Proof.Machine

/-- The fields a command other than CONFIGURE and RELEASE leaves alone when its checks pass. -/
theorem commandEffect_frame {i : Instr} (h1 : i ≠ .configure) (h2 : i ≠ .release) (s : State) :
    commandEffect i s = { s with
      words := (commandEffect i s).words, result := (commandEffect i s).result, hsBase := (commandEffect i s).hsBase,
      hsIncr := (commandEffect i s).hsIncr, hsValid := (commandEffect i s).hsValid,
      errSticky := (commandEffect i s).errSticky, errOp := (commandEffect i s).errOp } := by
  cases i with
  | configure => exact absurd rfl h1
  | release => exact absurd rfl h2
  | vecSet => simp only [commandEffect]; rw [fieldPut_eq]; rfl
  | vecInc | vecDec => simp only [commandEffect, updateSlot]; rw [fieldPut_eq]; rfl
  | fltAdd | fltRemove => simp only [commandEffect]; rw [foldl_updateSlot_eq]; rfl
  | _ => rfl

theorem commandEffect_configured_of_ne {i : Instr} (h1 : i ≠ .configure) (h2 : i ≠ .release) (s : State) :
    (commandEffect i s).configured = s.configured := by
  rw [commandEffect_frame h1 h2]

/-- HS_LOAD and the filter commands: the ones that leave the stream valid (10_state.md R30). -/
def loadsStream : Instr → Bool
  | .hsLoad | .fltAdd | .fltRemove | .fltContains => true
  | _ => false

theorem commandEffect_hsValid (i : Instr) (s : State) :
    (commandEffect i s).hsValid = (loadsStream i || s.hsValid) := by
  cases i <;> simp [commandEffect, loadsStream]

theorem commandEffect_errSticky (i : Instr) (s : State) :
    (commandEffect i s).errSticky = (decide (i ≠ .clearErr) && s.errSticky) := by
  cases i <;> simp [commandEffect]

theorem errorBits_ne_zero (code : ErrorCode) : errorBits code ≠ 0#4 := by cases code <;> decide

/-- A command changes CONFIGURED only as CONFIGURE or RELEASE. -/
theorem exec_configured {i : Instr} {s t : State} (h : exec i s = .next t) :
    t.configured = s.configured ∨ (i = .configure ∧ t.configured = true) ∨ (i = .release ∧ t.configured = false) := by
  obtain ⟨code, -, rfl⟩ | ⟨-, -, rfl⟩ := exec_cases h
  · exact .inl rfl
  · by_cases h1 : i = .configure
    · subst h1; exact .inr (.inl ⟨rfl, rfl⟩)
    by_cases h2 : i = .release
    · subst h2; exact .inr (.inr ⟨rfl, rfl⟩)
    · exact .inl (commandEffect_configured_of_ne h1 h2 s)

/-- A command changes HS_VALID only by setting it, as HS_LOAD or a filter command. -/
theorem exec_hsValid {i : Instr} {s t : State} (h : exec i s = .next t) :
    t.hsValid = s.hsValid ∨ (loadsStream i = true ∧ t.hsValid = true) := by
  obtain ⟨code, -, rfl⟩ | ⟨-, -, rfl⟩ := exec_cases h
  · exact .inl rfl
  · cases hl : loadsStream i <;> simp [commandEffect_hsValid, hl]

/-- A command changes ERR_STICKY only by failing, or as CLEAR_ERR. -/
theorem exec_errSticky {i : Instr} {s t : State} (h : exec i s = .next t) :
    t.errSticky = s.errSticky ∨ (t.err ≠ 0#4 ∧ t.errSticky = true) ∨ (i = .clearErr ∧ t.errSticky = false) := by
  obtain ⟨code, -, rfl⟩ | ⟨-, -, rfl⟩ := exec_cases h
  · exact .inr (.inl ⟨errorBits_ne_zero code, rfl⟩)
  · by_cases hi : i = .clearErr
    · subst hi; exact .inr (.inr ⟨rfl, rfl⟩)
    · simp [commandEffect_errSticky, hi]

@[simp] theorem regWrite_configured (s : State) (r : Reg) (v : Word) : (regWrite s r v).configured = s.configured := by
  obtain h | h := regWrite_eq_self_or_regStore s r v <;> rw [h]
  cases r <;> rfl

@[simp] theorem regWrite_hsValid (s : State) (r : Reg) (v : Word) : (regWrite s r v).hsValid = s.hsValid := by
  obtain h | h := regWrite_eq_self_or_regStore s r v <;> rw [h]
  cases r <;> rfl

@[simp] theorem regWrite_errSticky (s : State) (r : Reg) (v : Word) : (regWrite s r v).errSticky = s.errSticky := by
  obtain h | h := regWrite_eq_self_or_regStore s r v <;> rw [h]
  cases r <;> rfl

/-- The words of the commands that load the stream. -/
theorem encode_of_loadsStream {i : Instr} (h : loadsStream i = true) :
    encode i ∈ [0x20#64, 0x30#64, 0x31#64, 0x32#64] := by
  cases i with
  | hsLoad | fltAdd | fltRemove | fltContains => decide
  | _ => cases h

/-- Settles O50, by the kinds of step of step_cases. -/
theorem statusBitsChangeOnlyByNamedEvents : Obligations.StatusBitsChangeOnlyByNamedEvents := by
  intro s t e rest hp hstep
  obtain ⟨r, rfl, rfl⟩ | ⟨r, v, -, rfl, rfl⟩ | ⟨c, i, rfl, hd, hx⟩ | ⟨c, d, rfl, -, rfl⟩ | ⟨running, held, rfl, rfl⟩ :=
    step_cases hp hstep
  · simp +contextual [performRead]
  · simp +contextual
  · rw [eq_encode_of_decode hd]
    have hc := exec_configured hx
    have hv := exec_hsValid hx
    have he := exec_errSticky hx
    refine ⟨fun h1 h2 => ?_, fun h1 h2 => ?_, fun h1 h2 => ?_, fun h1 h2 => ?_, fun h1 h2 => ?_, fun h1 h2 => ?_⟩
    · obtain rfl : i = .release := by simpa [h1, h2] using hc
      exact .inl rfl
    · obtain rfl : i = .configure := by simpa [h1, h2] using hc
      rfl
    · simp [h1, h2] at hv
    · have hl : loadsStream i = true := by simpa [h1, h2] using hv
      exact ⟨_, encode_of_loadsStream hl, rfl⟩
    · obtain rfl : i = .clearErr := by simpa [h1, h2] using he
      exact .inl rfl
    · exact ⟨by simpa [h1, h2] using he, _, rfl⟩
  · have hcmd : ∃ c', commandEvent c = .access (.write 64 0x78 c') := ⟨c, rfl⟩
    simp +contextual [errorBits, hcmd]
  · simp [performReset, State.resetOf]

/-- The configuration registers and GEOM of `t` are those of `s`. -/
structure SameGeometry (s t : State) : Prop where
  cfgMode : t.cfgMode = s.cfgMode
  cfgNumElements : t.cfgNumElements = s.cfgNumElements
  cfgElementBits : t.cfgElementBits = s.cfgElementBits
  cfgNumHashes : t.cfgNumHashes = s.cfgNumHashes
  epw : t.epw = s.epw
  numWords : t.numWords = s.numWords

/-- A command from a configured state to a configured state changes no configuration: CONFIGURE fails, and RELEASE frees. -/
theorem sameGeometry_exec {i : Instr} {s t : State} (hx : exec i s = .next t) (hs : s.configured = true)
    (ht : t.configured = true) : SameGeometry s t := by
  obtain ⟨code, -, rfl⟩ | ⟨hk, -, rfl⟩ := exec_cases hx
  · exact ⟨rfl, rfl, rfl, rfl, rfl, rfl⟩
  · have h1 : i ≠ .configure := by
      rintro rfl
      exact Bool.noConfusion (hs.symm.trans (configureCheck_none hk).1)
    have h2 : i ≠ .release := by
      rintro rfl
      cases ht
    rw [commandEffect_frame h1 h2]
    exact ⟨rfl, rfl, rfl, rfl, rfl, rfl⟩

/-- A host write to a configured engine changes no configuration (10_state.md R28). -/
theorem sameGeometry_regWrite {s : State} (hs : s.configured = true) (r : Reg) (v : Word) :
    SameGeometry s (regWrite s r v) := by
  cases r with
  | cfgMode | cfgNumElements | cfgElementBits | cfgNumHashes =>
    rw [regWrite_of_locked hs rfl]
    exact ⟨rfl, rfl, rfl, rfl, rfl, rfl⟩
  | _ => exact ⟨rfl, rfl, rfl, rfl, rfl, rfl⟩

/-- Every step that starts and ends configured keeps the configuration and the geometry. -/
theorem sameGeometry_step {s t : State} (hstep : step s = .next t) (hs : s.configured = true)
    (ht : t.configured = true) : SameGeometry s t := by
  cases hp : s.pending with
  | nil =>
    rw [step_of_pending_nil hp] at hstep
    cases hstep
    exact ⟨rfl, rfl, rfl, rfl, rfl, rfl⟩
  | cons e rest =>
    have same {t : State} : SameGeometry { s with pending := rest } t → SameGeometry s t :=
      fun ⟨hm, hn, hw, hk, he, hg⟩ => ⟨hm, hn, hw, hk, he, hg⟩
    obtain ⟨r, -, rfl⟩ | ⟨r, v, -, -, rfl⟩ | ⟨c, i, -, -, hx⟩ | ⟨c, d, -, -, rfl⟩ | ⟨running, held, -, rfl⟩ :=
      step_cases hp hstep
    · exact ⟨rfl, rfl, rfl, rfl, rfl, rfl⟩
    · exact same (sameGeometry_regWrite (s := { s with pending := rest }) hs r v)
    · exact same (sameGeometry_exec hx hs ht)
    · exact ⟨rfl, rfl, rfl, rfl, rfl, rfl⟩
    · cases ht

/-- Settles O51. -/
theorem geometryFixedWhileConfigured : Obligations.GeometryFixedWhileConfigured := by
  intro s t hstep hs ht
  obtain ⟨hm, hn, hw, hk, he, hg⟩ := sameGeometry_step hstep hs ht
  exact ⟨hm, hn, hw, hk, he, hg⟩

end Sys2Proof.Machine
end

section
/-! The digest registers hold their bytes big-endian, and HS_LOAD reads them so (20_memory.md R61; 41_hash_stream.md R151). -/

namespace Sys2Proof.Machine

theorem place_zero (v : Word) : place v 0 = v := by simp [place]

/-- Adjacent fields placed one by one are their concatenation placed. -/
theorem place_append {m n : Nat} (a : BitVec m) (b : BitVec n) (lsb : Nat) :
    place (a ++ b) lsb = place a (lsb + n) ||| place b lsb := by
  apply BitVec.eq_of_getLsbD_eq
  intro i hi
  rw [BitVec.getLsbD_or, getLsbD_place, getLsbD_place, getLsbD_place, BitVec.getLsbD_append]
  by_cases hn : i - lsb < n
  · have hl : ¬ lsb + n ≤ i := by omega
    simp [hi, hn, hl]
  · have hb : b.getLsbD (i - lsb) = false := BitVec.getLsbD_of_ge _ _ (by omega)
    have hl : lsb ≤ i ↔ lsb + n ≤ i := by omega
    simp [hi, hn, hb, hl, Nat.sub_sub]

/-- BE64 is the concatenation of its two halves of four bytes, the first byte on top. -/
theorem be64_eq_append (b0 b1 b2 b3 b4 b5 b6 b7 : Byte) :
    be64 b0 b1 b2 b3 b4 b5 b6 b7 = (b0 ++ b1 ++ b2 ++ b3) ++ (b4 ++ b5 ++ b6 ++ b7) := by
  refine Eq.trans ?_ (place_zero ((b0 ++ b1 ++ b2 ++ b3) ++ (b4 ++ b5 ++ b6 ++ b7)))
  iterate 7 rw [place_append]
  simp only [be64, BitVec.or_assoc, Nat.reduceAdd]

theorem toNat_append_eq_add {m n : Nat} (a : BitVec m) (b : BitVec n) :
    (a ++ b).toNat = a.toNat * 2 ^ n + b.toNat := by
  rw [BitVec.toNat_append, ← Nat.shiftLeft_add_eq_or_of_lt b.isLt, Nat.shiftLeft_eq]

/-- BE64 as the sum of 00_scope.md R11. -/
theorem toNat_be64 (b0 b1 b2 b3 b4 b5 b6 b7 : Byte) : (be64 b0 b1 b2 b3 b4 b5 b6 b7).toNat =
    b0.toNat * 2 ^ 56 + b1.toNat * 2 ^ 48 + b2.toNat * 2 ^ 40 + b3.toNat * 2 ^ 32 + b4.toNat * 2 ^ 24 +
      b5.toNat * 2 ^ 16 + b6.toNat * 2 ^ 8 + b7.toNat := by
  rw [be64_eq_append]
  simp only [toNat_append_eq_add]
  omega

/-- The increment of a packed digest straddles the two registers: bytes 4 to 11 (41_hash_stream.md R151). -/
theorem streamIncr_of_packed {s : State} {d : Vector Byte 16} (h0 : s.digest0 = packDigest0 d)
    (h1 : s.digest1 = packDigest1 d) : streamIncr s = be64 d[4] d[5] d[6] d[7] d[8] d[9] d[10] d[11] := by
  have lower : s.digest0.extractLsb 31 0 = d[4] ++ d[5] ++ d[6] ++ d[7] := by
    rw [h0, packDigest0, be64_eq_append]
    exact BitVec.extractLsb'_append_eq_right
  have upper : s.digest1.extractLsb 63 32 = d[8] ++ d[9] ++ d[10] ++ d[11] := by
    rw [h1, packDigest1, be64_eq_append]
    exact BitVec.extractLsb'_append_eq_left
  rw [streamIncr, lower, upper, be64_eq_append]

/-- Settles O26. -/
theorem digestIsReadBigEndian : Obligations.DigestIsReadBigEndian :=
  ⟨toNat_be64, fun _ _ h0 h1 => ⟨_, exec_of_ok (i := .hsLoad) rfl rfl, h0, streamIncr_of_packed h0 h1⟩⟩

end Sys2Proof.Machine
end

section
/-! The bus: exactly the accesses at a register's offset are admitted, a read changes no register, and an idle engine
changes nothing (20_memory.md R64 to R69). -/

namespace Sys2Proof.Machine

/-- Settles O14. -/
theorem idleEngineChangesNothing : Obligations.IdleEngineChangesNothing := fun _ => step_of_pending_nil

/-- A read, as the next host event (20_memory.md R65, R66). -/
theorem step_read {s : State} {rest : List HostEvent} {r : Reg}
    (hp : s.pending = .access (.read 64 (regOffset r)) :: rest) :
    step s = .next (performRead r { s with pending := rest }) := by
  rw [step_of_pending_cons hp, performEvent_read]

theorem regRead_pending (s : State) (rest : List HostEvent) (r : Reg) :
    regRead { s with pending := rest } r = regRead s r := by
  cases r <;> rfl

/-- Settles O7. -/
theorem readReturnsRegisterWithoutSideEffect : Obligations.ReadReturnsRegisterWithoutSideEffect := by
  intro s rest r hp
  rw [step_read hp, performRead, regRead_pending]

/-- The registers' offsets are the multiples of 8 from 0x00 to 0x78 (10_state.md R21). -/
theorem exists_regOffset_iff {offset : Nat} : (∃ r, offset = regOffset r) ↔ offset % 8 = 0 ∧ offset ≤ 0x78 := by
  constructor
  · rintro ⟨r, rfl⟩
    cases r <;> decide
  · rintro ⟨h8, hle⟩
    have table : ∀ n < 16, ∃ r ∈ registerMap, 8 * n = regOffset r := by decide
    obtain ⟨r, -, hr⟩ := table (offset / 8) (by omega)
    exact ⟨r, by omega⟩

/-- No register answers an access of another width, off the multiples of 8, or past 0x78 (20_memory.md R64). -/
theorem admitted_eq_none {width offset : Nat} (h : ¬ (width = 64 ∧ offset % 8 = 0 ∧ offset ≤ 0x78)) :
    admitted width offset = none := by
  refine Option.eq_none_iff_forall_ne_some.2 fun r hr => h ?_
  obtain ⟨hw, ho⟩ := admitted_eq hr
  exact ⟨hw, exists_regOffset_iff.1 ⟨r, ho⟩⟩

/-- A write at a register's offset is never refused: it stores, is ignored, or runs as a command. -/
theorem performEvent_write_ne_refused (r : Reg) (v : Word) (s : State) (e : Refusal) :
    performEvent (.access (.write 64 (regOffset r) v)) s ≠ .refused e := by
  by_cases hr : r = .cmd
  · subst hr
    change performEvent (commandEvent v) s ≠ .refused e
    cases hd : decode v with
    | ok i => rw [performEvent_command hd]; exact exec_ne_refused i s e
    | error d => rw [performEvent_illegal hd]; nofun
  · rw [performEvent_write hr]; nofun

/-- Settles O12. -/
theorem onlyAlignedSixtyFourBitAccessesAdmitted : Obligations.OnlyAlignedSixtyFourBitAccessesAdmitted := by
  refine fun s rest width offset v => ⟨fun h => ⟨fun hp => ?_, fun hp => ?_⟩, ?_⟩
  · rw [step_of_pending_cons hp, performEvent, performAccess, admitted_eq_none h]
  · rw [step_of_pending_cons hp, performEvent, performAccess, admitted_eq_none h]
  · rintro ⟨rfl, ho⟩
    obtain ⟨r, rfl⟩ := exists_regOffset_iff.2 ho
    refine ⟨fun hp => ⟨_, step_read hp⟩, fun hp e => ?_⟩
    rw [step_of_pending_cons hp]
    exact performEvent_write_ne_refused r v _ e

end Sys2Proof.Machine
end

section
/-! The opcode map: a word is a command exactly when it is that command's opcode zero-extended, and any other word raises
ILLEGAL_COMMAND (30_encoding.md R91 to R94). -/

namespace Sys2Proof.Machine

/-- Decoding and encoding are inverse to each other (30_encoding.md R93). -/
theorem decode_eq_ok_iff (c : Word) (i : Instr) : decode c = .ok i ↔ c = encode i :=
  ⟨eq_encode_of_decode, fun h => h ▸ decode_encode i⟩

/-- Settles O4: each row is decode_eq_ok_iff at its command, whose encoding is the word of the row. -/
theorem decodeSelectsExactlyTheTable : Obligations.DecodeSelectsExactlyTheTable :=
  ⟨fun c => ⟨decode_eq_ok_iff c .nop, decode_eq_ok_iff c .configure, decode_eq_ok_iff c .release,
    decode_eq_ok_iff c .clearErr, decode_eq_ok_iff c .hsLoad, decode_eq_ok_iff c .hsNext, decode_eq_ok_iff c .vecGet,
    decode_eq_ok_iff c .vecSet, decode_eq_ok_iff c .vecInc, decode_eq_ok_iff c .vecDec, decode_eq_ok_iff c .vecReadWord,
    decode_eq_ok_iff c .fltAdd, decode_eq_ok_iff c .fltRemove, decode_eq_ok_iff c .fltContains⟩, decode_eq_ok_iff⟩

/-- A word selects a command through its two fields: RSV is 0 and the map holds OPC (30_encoding.md R91, R93). -/
theorem decode_eq_ok_iff_fields (c : Word) (i : Instr) :
    decode c = .ok i ↔ rsvField c = 0#56 ∧ instrOfOpcode (opcField c) = some i := by
  unfold decode
  by_cases hr : rsvField c = 0#56
  · cases ho : instrOfOpcode (opcField c) <;> simp [hr]
  · simp [hr]

/-- The opcodes the map holds, out of all 256 (30_encoding.md R93). -/
theorem instrOfOpcode_isSome_iff : ∀ b : Byte, (instrOfOpcode b).isSome = true ↔ b ∈ assignedOpcodes := by decide

/-- The legal words (30_encoding.md R94). -/
theorem exists_decode_eq_ok_iff (c : Word) :
    (∃ i, decode c = .ok i) ↔ rsvField c = 0#56 ∧ opcField c ∈ assignedOpcodes := by
  simp only [decode_eq_ok_iff_fields, exists_and_left, ← Option.isSome_iff_exists, instrOfOpcode_isSome_iff]

/-- An illegal word, as the next host event (30_encoding.md R94). -/
theorem step_illegal {s : State} {rest : List HostEvent} {c : Word} (hp : s.pending = commandEvent c :: rest)
    (hc : ∀ i, decode c ≠ .ok i) :
    step s = .next (raiseError (opcField c) .illegalCommand { s with pending := rest }) := by
  cases hd : decode c with
  | ok i => exact absurd hd (hc i)
  | error d => rw [step_of_pending_cons hp, performEvent_illegal hd]

/-- Settles O6: the count of 242 is an evaluation over the 256 words with RSV 0. -/
theorem illegalWordRaisesIllegalCommand : Obligations.IllegalWordRaisesIllegalCommand := by
  refine ⟨fun c => ?_, by decide +kernel, fun s rest c hp hc => step_illegal hp hc⟩
  rw [exists_decode_eq_ok_iff]
  refine and_congr_right fun _ => List.Perm.mem_iff ?_
  decide

/-- Settles O3: the legal words are encodings, and the other two fail on OPC and on RSV. -/
theorem listedWordsDecode : Obligations.ListedWordsDecode :=
  ⟨decode_encode .nop, decode_encode .configure, decode_encode .hsNext, decode_encode .vecReadWord,
    decode_encode .fltContains, by decide, by decide⟩

end Sys2Proof.Machine
end

section
/-! The frame of every command: the state its row of the opcode table names, and the storage words it stores to
(30_encoding.md R92). -/

namespace Sys2Proof.Machine

/-- A command that completes writes only what its row names (30_encoding.md R92). -/
theorem writtenBy_complete_commandEffect (i : Instr) (s : State) :
    writtenBy i s (complete (commandEffect i s)) = complete (commandEffect i s) := by
  cases i with
  | vecSet | vecInc | vecDec => simp only [commandEffect, updateSlot]; rw [fieldPut_eq]; rfl
  | fltAdd | fltRemove => simp only [commandEffect]; rw [foldl_updateSlot_eq]; rfl
  | _ => rfl

/-- The construction of CONFIGURE leaves the words from NW up unspecified, as they were (40_control.md R122). -/
theorem memRead_construct_of_ge {s : State} (hc : s.configured = false) {k : Nat} (hk : configNumWords s ≤ k) :
    memRead (construct s) k = memRead s k := by
  have hs : s.inUse k = false := by simp [State.inUse, hc]
  have ht : (construct s).inUse k = false := by
    have hle : (BitVec.ofNat 32 (configNumWords s)).toNat ≤ configNumWords s := by
      rw [BitVec.toNat_ofNat]; exact Nat.mod_le ..
    have : ¬ k < (BitVec.ofNat 32 (configNumWords s)).toNat := by omega
    simpa [State.inUse, construct] using this
  simp only [memRead, hs, ht]
  rfl

/-- A command that completes changes only the storage words it stores to; RELEASE changes them all. -/
theorem memRead_commandEffect_of_not_mem {i : Instr} {s : State} (hi : i ≠ .release) (hok : commandCheck i s = none)
    {k : Nat} (hk : k ∉ storesTo i s) : memRead (commandEffect i s) k = memRead s k := by
  cases i with
  | release => exact absurd rfl hi
  | configure =>
    obtain ⟨hc, -⟩ := configureCheck_none hok
    exact memRead_construct_of_ge hc (Nat.le_of_not_lt fun h => hk (List.mem_range.2 h))
  | vecSet | vecInc | vecDec => exact memRead_fieldPut_of_ne s _ fun h => hk (List.mem_singleton.2 h)
  | fltAdd | fltRemove =>
    exact memRead_foldl_updateSlot _ _ s fun j hj h => hk (List.mem_map.2 ⟨j, hj, h.symm⟩)
  | _ => rfl

/-- Settles O47, by whether a check of the command fails. -/
theorem commandsWriteOnlyTheirColumns : Obligations.CommandsWriteOnlyTheirColumns := by
  intro i s t hx
  obtain ⟨code, -, rfl⟩ | ⟨hok, -, rfl⟩ := exec_cases hx
  · exact ⟨fun h => absurd h (errorBits_ne_zero code), fun _ => rfl, fun _ _ _ => rfl⟩
  · exact ⟨fun _ => (writtenBy_complete_commandEffect i s).symm, fun h => absurd rfl h,
      fun hi _ hk => memRead_commandEffect_of_not_mem hi hok hk⟩

end Sys2Proof.Machine
end

section
/-! What CONFIGURE accepts and what it constructs (40_control.md R122, R123). -/

namespace Sys2Proof.Machine

theorem mode_reserved_iff (s : State) : s.mode = .reserved ↔ s.cfgMode = 3#2 := by
  unfold State.mode modeOfBits
  generalize s.cfgMode = m
  revert m
  decide

/-- The two readings of a legal width agree outside the reserved mode. -/
theorem widthLegal_iff {s : State} (hm : s.cfgMode ≠ 3#2) : widthLegal s = true ↔ legalWidth s := by
  unfold widthLegal legalWidth
  split
  · rename_i h; simp [(mode_raw_iff s).1 h]
  · rename_i h; simp [(mode_bitset_iff s).1 h]
  · rename_i h; simp [(mode_counting_iff s).1 h]
  · rename_i h; exact absurd ((mode_reserved_iff s).1 h) hm

/-- A legal width has a mode that is not reserved. -/
theorem mode_ne_reserved_of_widthLegal {s : State} (h : widthLegal s = true) : s.mode ≠ .reserved := by
  intro hm
  simp [widthLegal, hm] at h

/-- CONFIGURE's checks pass exactly for the configurations that configurationOk asks for, while not configured. -/
theorem configureCheck_eq_none_iff (s : State) : configureCheck s = none ↔
    s.configured = false ∧ widthLegal s = true ∧ configNumWords s ≤ s.build.maxWords.toNat ∧
      (s.mode = .raw ∨ s.numElements ≠ 0 ∧ s.numHashes ≠ 0) := by
  constructor
  · intro h
    obtain ⟨hc, -, hrest⟩ := configureCheck_none h
    exact ⟨hc, hrest⟩
  · rintro ⟨hc, hw, hx, hf⟩
    have hm := mode_ne_reserved_of_widthLegal hw
    rcases hf with hr | ⟨hn, hk⟩
    · simp [configureCheck, hc, hw, hx, hr]
    · simp [configureCheck, hc, hw, hx, hm, hn, hk]

/-- A command whose check fails changes the STATUS error fields only. -/
theorem failsWith_of_check {i : Instr} {s : State} {code : ErrorCode} (h : commandCheck i s = some code) :
    failsWith i (errorBits code) s := exec_of_check h

/-- A command that gives ERR 0 passed its checks and had its effect. -/
theorem exec_eq_complete_of_err {i : Instr} {s t : State} (h : exec i s = .next t) (he : t.err = 0#4) :
    commandCheck i s = none ∧ t = complete (commandEffect i s) := by
  obtain ⟨code, -, rfl⟩ | ⟨hk, -, rfl⟩ := exec_cases h
  · exact absurd he (errorBits_ne_zero code)
  · exact ⟨hk, rfl⟩

theorem exec_configure_of_ok {s : State} (h : configureCheck s = none) :
    exec .configure s = .next (complete (construct s)) := exec_of_ok (i := .configure) h rfl

/-- CONFIGURE's success is that its checks pass. -/
theorem exists_configure_err_zero_iff (s : State) :
    (∃ t, exec .configure s = .next t ∧ t.err = 0#4) ↔ configureCheck s = none :=
  ⟨fun ⟨_, h, he⟩ => (exec_eq_complete_of_err h he).1, fun h => ⟨_, exec_configure_of_ok h, rfl⟩⟩

/-- GEOM's NUM_WORDS field holds NW. -/
theorem toNat_configNumWords {s : State} (h : configureCheck s = none) :
    (BitVec.ofNat 32 (configNumWords s)).toNat = configNumWords s := by
  obtain ⟨-, -, hx, -⟩ := (configureCheck_eq_none_iff s).1 h
  rw [BitVec.toNat_ofNat, Nat.mod_eq_of_lt (hx.trans_lt s.build.maxWords.isLt)]

/-- The words that CONFIGURE brings into use read 0. -/
theorem memRead_construct_of_lt {s : State} {j : Nat} (hj : j < (construct s).numWords.toNat) :
    memRead (construct s) j = 0#64 := by
  have hu : (construct s).inUse j = true := by
    rw [State.inUse, construct_configured, decide_eq_true hj]
    rfl
  rw [memRead, if_pos hu, construct_words, Memory.read, BitVec.zero_and]

/-- Settles O17: the checks one by one in their order, then the construction. -/
theorem configureConstructsStorage : Obligations.ConfigureConstructsStorage := by
  intro s EPW NW hEPW hNW
  obtain rfl : EPW = configEpw s := hEPW
  obtain rfl : NW = configNumWords s := hNW
  have hres := mode_reserved_iff s
  have hraw := mode_raw_iff s
  have hwidth := widthLegal_iff (s := s)
  refine ⟨fun hc => ?_, fun hc hm => ?_, fun hc hm hw => ?_, fun hc hm hw hx => ?_, fun hc hm hw hx hk => ?_,
    fun hc hm hw hx hk => ?_⟩
  · exact failsWith_of_check (code := .alreadyConfigured) (by simp [commandCheck, configureCheck, hc])
  · exact failsWith_of_check (code := .cfgBadMode) (by simp [commandCheck, configureCheck, hc, hres, hm])
  · exact failsWith_of_check (code := .cfgBadWidth) (by
      simp [commandCheck, configureCheck, hc, hres, hm, mt (hwidth hm).1 hw])
  · refine failsWith_of_check (code := .cfgBadSize) ?_
    rcases hx with ⟨h1, h2⟩ | h3
    · simp [commandCheck, configureCheck, hc, hres, hm, (hwidth hm).2 hw, hraw, h1, h2]
    · simp [commandCheck, configureCheck, hc, hres, hm, (hwidth hm).2 hw, h3]
  · refine failsWith_of_check (code := .cfgBadHashes) ?_
    obtain ⟨hn, hx⟩ := not_or.1 hx
    have hN : s.numElements ≠ 0 := fun h => hn ⟨hk.1, h⟩
    simp [commandCheck, configureCheck, hc, hres, hm, (hwidth hm).2 hw, hraw, hx, hk, hN]
  · obtain ⟨hn, hx⟩ := not_or.1 hx
    have hok : configureCheck s = none := by
      refine (configureCheck_eq_none_iff s).2 ⟨hc, (hwidth hm).2 hw, Nat.le_of_not_lt hx, ?_⟩
      rw [hraw]
      tauto
    refine ⟨_, exec_configure_of_ok hok, rfl, toNat_configEpw s, toNat_configNumWords hok, fun j hj => ?_⟩
    rw [memRead_complete]
    exact memRead_construct_of_lt (by rwa [construct_numWords, toNat_configNumWords hok])

/-- Where counters fit, NW words are enough for N counters exactly if N is at most their capacity. -/
theorem configNumWords_le_iff {s : State} (h : widthLegal s = true) (m : Nat) :
    configNumWords s ≤ m ↔ s.numElements ≤ m * configEpw s := by
  obtain ⟨hpos, hle⟩ := widthLegal_bounds h
  have hepw : 0 < configEpw s := Nat.div_pos hle hpos
  rw [configNumWords, ceilDiv, ← Nat.ceilDiv_eq_add_pred_div, ceilDiv_le_iff_le_mul hepw, Nat.mul_comm]

/-- RAW's row of the table (40_control.md R123). -/
theorem configureCheck_none_iff_of_raw {s : State} (hc : s.configured = false) (hraw : s.mode = .raw) :
    configureCheck s = none ↔ 1 ≤ s.elementBits ∧ s.elementBits ≤ s.wordBits ∧
      s.numElements ≤ s.build.maxWords.toNat * (s.wordBits / s.elementBits) := by
  have hw : widthLegal s = true ↔ 1 ≤ s.elementBits ∧ s.elementBits ≤ s.wordBits := by simp [widthLegal, hraw]
  rw [configureCheck_eq_none_iff, ← and_assoc (a := 1 ≤ _), ← hw]
  simp only [hc, hraw, true_and, true_or, and_true]
  exact and_congr_right fun h => configNumWords_le_iff h _

/-- The row of a filter mode, whose width is `w` (40_control.md R123). -/
theorem configureCheck_none_iff_of_filter {s : State} {w : Nat} (hc : s.configured = false) (hm : s.mode ≠ .raw)
    (hw : widthLegal s = true ↔ s.elementBits = w) :
    configureCheck s = none ↔ s.elementBits = w ∧ 1 ≤ s.numElements ∧
      s.numElements ≤ s.build.maxWords.toNat * (s.wordBits / w) ∧ 1 ≤ s.numHashes := by
  rw [configureCheck_eq_none_iff, ← hw]
  simp only [hc, hm, true_and, false_or, Nat.one_le_iff_ne_zero]
  refine and_congr_right fun h => ?_
  rw [configNumWords_le_iff h, configEpw, hw.1 h]
  tauto

/-- Settles O18, by the four modes. -/
theorem legalConfigurationsAreTheTable : Obligations.LegalConfigurationsAreTheTable := by
  intro s hc
  refine ⟨?_, fun t ht he => ?_⟩
  · rw [exists_configure_err_zero_iff]
    cases hmode : s.mode with
    | raw => simp [configureCheck_none_iff_of_raw hc hmode, (mode_raw_iff s).1 hmode]
    | bitset =>
      have hw : widthLegal s = true ↔ s.elementBits = 1 := by simp [widthLegal, hmode]
      simp [configureCheck_none_iff_of_filter hc (by simp [hmode]) hw, (mode_bitset_iff s).1 hmode]
    | counting =>
      have hw : widthLegal s = true ↔ s.elementBits = 4 := by simp [widthLegal, hmode]
      simp [configureCheck_none_iff_of_filter hc (by simp [hmode]) hw, (mode_counting_iff s).1 hmode]
    | reserved => simp [configureCheck, hc, hmode, (mode_reserved_iff s).1 hmode]
  · obtain ⟨hok, rfl⟩ := exec_eq_complete_of_err ht he
    obtain ⟨-, hm, hw, -⟩ := configureCheck_none hok
    obtain ⟨-, hbitset, hcounting⟩ := (widthLegal_iff (mt (mode_reserved_iff s).2 hm)).1 hw
    have hepw : (complete (construct s)).epw.toNat = s.wordBits / s.elementBits := toNat_configEpw s
    have hnw : (complete (construct s)).numWords.toNat = ceilDiv s.numElements (s.wordBits / s.elementBits) :=
      toNat_configNumWords hok
    refine ⟨fun _ => ⟨hepw, hnw⟩, fun hb => ?_, fun hb => ?_⟩
    · rw [hbitset hb, Nat.div_one] at hepw hnw
      exact ⟨hepw, hnw⟩
    · rw [hcounting hb] at hepw hnw
      exact ⟨hepw, hnw⟩

end Sys2Proof.Machine
end

section
/-! RELEASE, and CONFIGURE after it: no counter value survives (40_control.md R124). -/

namespace Sys2Proof.Machine

theorem exec_release_of_configured {s : State} (hc : s.configured = true) :
    exec .release s = .next (complete (dropStorage s)) :=
  exec_of_ok (i := .release) (by simp [commandCheck, configuredCheck, hc]) rfl

/-- Settles O19, by whether the engine is configured. -/
theorem releaseFreesStorage : Obligations.ReleaseFreesStorage := fun s =>
  ⟨fun hc => failsWith_of_check (code := .notConfigured) (by simp [commandCheck, configuredCheck, hc]),
    exec_release_of_configured⟩

/-- The configuration of a released engine is still a legal one (10_state.md R46 d). -/
theorem configureCheck_dropStorage {s : State} (h : s.inv = true) (hc : s.configured = true) :
    configureCheck (dropStorage s) = none := by
  obtain ⟨-, hg, -, -⟩ := inv_parts h
  simp only [geometryOk, hc, if_true, configurationOk, Bool.and_eq_true, Bool.or_eq_true, decide_eq_true_eq] at hg
  obtain ⟨hw, -, -, hx, hf⟩ := hg
  exact (configureCheck_eq_none_iff _).2 ⟨rfl, hw, hx, hf⟩

/-- Every counter below N is 0 after the construction. -/
theorem fieldGet_construct {s : State} (h : s.inv = true) (hk : configureCheck s = none) {i : Nat}
    (hi : i < s.numElements) : fieldGet (construct s) i = 0#64 := by
  have hl : Layout (construct s) := Layout.of_inv (inv_construct h hk) rfl
  rw [fieldGet, memRead_construct_of_lt (hl.wordLt hi), BitVec.zero_ushiftRight, BitVec.zero_and]

/-- Settles O20. -/
theorem releaseThenConfigureZeroes : Obligations.ReleaseThenConfigureZeroes := by
  intro s h hc
  have hinv : (complete (dropStorage s)).inv = true := inv_complete (inv_dropStorage h)
  have hok : configureCheck (complete (dropStorage s)) = none := (configureCheck_dropStorage h hc :)
  refine ⟨complete (construct (complete (dropStorage s))), ?_, rfl, rfl, rfl, fun i hi => ?_⟩
  · rw [runCommands_cons _ (exec_release_of_configured hc), runCommands_cons _ (exec_configure_of_ok hok), runCommands]
  · rw [fieldGet_complete]
    exact fieldGet_construct hinv hok hi

end Sys2Proof.Machine
end

section
/-! NOP and CLEAR_ERR: the commands of every state that write STATUS only (40_control.md R121, R125). -/

namespace Sys2Proof.Machine

/-- Settles O15. -/
theorem nopOnlyClearsErr : Obligations.NopOnlyClearsErr := fun _ => exec_of_ok (i := .nop) rfl rfl

theorem commandEffect_errOp {i : Instr} (hi : i ≠ .clearErr) (s : State) : (commandEffect i s).errOp = s.errOp := by
  cases i with
  | clearErr => exact absurd rfl hi
  | _ => simp [commandEffect]

/-- A command other than CLEAR_ERR changes ERR_OP only by failing, to its own opcode. -/
theorem exec_errOp {i : Instr} {s t : State} (h : exec i s = .next t) (hi : i ≠ .clearErr) :
    t.errOp = s.errOp ∨ (t.err ≠ 0#4 ∧ t.errOp = opcode i) := by
  obtain ⟨code, -, rfl⟩ | ⟨-, -, rfl⟩ := exec_cases h
  · exact .inr ⟨errorBits_ne_zero code, rfl⟩
  · exact .inl (commandEffect_errOp hi s)

/-- Settles O16: CLEAR_ERR has no check, and the other commands' effects leave the record alone. -/
theorem clearErrClearsStickyRecord : Obligations.ClearErrClearsStickyRecord := by
  refine ⟨fun _ => exec_of_ok (i := .clearErr) rfl rfl, fun i s t hi h => ⟨fun hs => ?_, exec_errOp h hi⟩⟩
  obtain he | ⟨-, he⟩ | ⟨rfl, -⟩ := exec_errSticky h
  · exact he.trans hs
  · exact he
  · exact absurd rfl hi

end Sys2Proof.Machine
end

section
/-! The hash stream: HS_LOAD starts it, HS_NEXT emits and advances it, and no command but these and the filter commands
touches it (41_hash_stream.md R151 to R156). -/

namespace Sys2Proof.Machine

theorem exec_hsLoad (s : State) : exec .hsLoad s = .next (complete (setStream (streamBase s) (streamIncr s) s)) :=
  exec_of_ok (i := .hsLoad) rfl rfl

/-- Settles O21: HS_LOAD has no check. -/
theorem hsLoadStartsStream : Obligations.HsLoadStartsStream := exec_hsLoad

theorem exec_hsNext_of_valid {s : State} (hv : s.hsValid = true) :
    exec .hsNext s = .next (complete { s with result := s.hsBase, hsBase := s.hsBase + s.hsIncr }) :=
  exec_of_ok (i := .hsNext) (by simp [commandCheck, streamCheck, hv]) rfl

/-- Settles O22, by whether the stream is valid. -/
theorem hsNextEmitsAndAdvances : Obligations.HsNextEmitsAndAdvances := by
  refine fun s => ⟨fun hv => ?_, fun hv => ?_⟩
  · exact failsWith_of_check (code := .streamNotLoaded) (by simp [commandCheck, streamCheck, hv])
  · rw [← BitVec.toNat_add, BitVec.ofNat_toNat, BitVec.setWidth_eq]
    exact exec_hsNext_of_valid hv

/-- Settles O25: the upper half of inc is DIGEST_0[31:0], the lower half of base0. -/
theorem incrementOverlapsBase : Obligations.IncrementOverlapsBase := by
  intro s t h
  cases (exec_hsLoad s).symm.trans h
  exact BitVec.extractLsb'_append_eq_left

/-- A run of commands gives a next state when the first one does and the rest do from there. -/
theorem runCommands_cons_eq_next_iff {i : Instr} {l : List Instr} {s u : State} :
    runCommands (i :: l) s = .next u ↔ ∃ t, exec i s = .next t ∧ runCommands l t = .next u := by
  rw [runCommands]
  cases exec i s <;> simp

theorem runCommands_append_eq_next_iff {l l' : List Instr} {s u : State} :
    runCommands (l ++ l') s = .next u ↔ ∃ t, runCommands l s = .next t ∧ runCommands l' t = .next u := by
  induction l generalizing s with
  | nil => simp [runCommands]
  | cons i l ih =>
    simp only [List.cons_append, runCommands_cons_eq_next_iff, ih]
    exact ⟨fun ⟨v, hv, t, ht, hu⟩ => ⟨t, ⟨v, hv, ht⟩, hu⟩, fun ⟨t, ⟨v, hv, ht⟩, hu⟩ => ⟨v, hv, t, ht, hu⟩⟩

/-- `t` holds the valid stream of base `base` and increment `inc` from which `n` values have been emitted. -/
structure StreamAt (inc base : Word) (n : Nat) (t : State) : Prop where
  valid : t.hsValid = true
  base_eq : t.hsBase = streamAdvance inc n base
  incr_eq : t.hsIncr = inc

/-- HS_LOAD leaves the digest's stream with nothing emitted. -/
theorem streamAt_of_exec_hsLoad {s t : State} (h : exec .hsLoad s = .next t) :
    StreamAt (streamIncr s) (streamBase s) 0 t := by
  cases (exec_hsLoad s).symm.trans h
  exact ⟨rfl, rfl, rfl⟩

/-- The stream registers of a command's effect, HS_NEXT and the commands that load the stream apart. -/
theorem commandEffect_stream {i : Instr} (hl : loadsStream i = false) (hn : i ≠ .hsNext) (s : State) :
    (commandEffect i s).hsBase = s.hsBase ∧ (commandEffect i s).hsIncr = s.hsIncr := by
  cases i with
  | hsLoad | fltAdd | fltRemove | fltContains => cases hl
  | hsNext => exact absurd rfl hn
  | _ => simp [commandEffect]

theorem exec_stream {i : Instr} {s t : State} (hl : loadsStream i = false) (hn : i ≠ .hsNext)
    (h : exec i s = .next t) : t.hsBase = s.hsBase ∧ t.hsIncr = s.hsIncr := by
  obtain ⟨code, -, rfl⟩ | ⟨-, -, rfl⟩ := exec_cases h
  · exact ⟨rfl, rfl⟩
  · exact commandEffect_stream hl hn s

section
variable {inc base : Word} {n : Nat} {s t : State}

/-- HS_NEXT emits the next value of a valid stream. -/
theorem StreamAt.of_exec_hsNext (hs : StreamAt inc base n s) (h : exec .hsNext s = .next t) :
    t.result = streamAdvance inc n base ∧ StreamAt inc base (n + 1) t := by
  cases (exec_hsNext_of_valid hs.valid).symm.trans h
  refine ⟨hs.base_eq, hs.valid, ?_, hs.incr_eq⟩
  rw [streamAdvance_succ, ← hs.base_eq, ← hs.incr_eq]
  rfl

/-- A command that does not load the stream moves it on exactly when it is HS_NEXT. -/
theorem StreamAt.of_exec {i : Instr} (hs : StreamAt inc base n s) (hl : loadsStream i = false)
    (h : exec i s = .next t) : StreamAt inc base (n + [i].count .hsNext) t := by
  by_cases hn : i = .hsNext
  · subst hn
    exact (hs.of_exec_hsNext h).2
  · obtain ⟨hb, hi⟩ := exec_stream hl hn h
    have hv : t.hsValid = s.hsValid := by simpa [hl] using exec_hsValid h
    simpa [hn] using StreamAt.mk (hv.trans hs.valid) (hb.trans hs.base_eq) (hi.trans hs.incr_eq)

/-- Commands none of which loads the stream emit one value for each HS_NEXT among them. -/
theorem StreamAt.of_runCommands {l : List Instr} (hs : StreamAt inc base n s) (hl : ∀ i ∈ l, loadsStream i = false)
    (h : runCommands l s = .next t) : StreamAt inc base (n + l.count .hsNext) t := by
  induction l generalizing n s with
  | nil =>
    cases h
    exact hs
  | cons i l ih =>
    obtain ⟨u, hu, hrest⟩ := runCommands_cons_eq_next_iff.1 h
    rw [← List.singleton_append, List.count_append, ← Nat.add_assoc]
    exact ih (hs.of_exec (hl i List.mem_cons_self) hu) (fun j hj => hl j (List.mem_cons_of_mem _ hj)) hrest

/-- HS_NEXTs on a valid stream complete. -/
theorem exists_runCommands_replicate_hsNext (k : Nat) (hs : StreamAt inc base n s) :
    ∃ t, runCommands (List.replicate k .hsNext) s = .next t := by
  induction k generalizing n s with
  | zero => exact ⟨s, rfl⟩
  | succ k ih =>
    have hx := exec_hsNext_of_valid hs.valid
    rw [List.replicate_succ, runCommands_cons _ hx]
    exact ih (hs.of_exec_hsNext hx).2

end

theorem hsLoad_replicate_hsNext_completes (s : State) (k : Nat) :
    ∃ t, runCommands (.hsLoad :: List.replicate k .hsNext) s = .next t := by
  rw [runCommands_cons _ (exec_hsLoad s)]
  exact exists_runCommands_replicate_hsNext k (streamAt_of_exec_hsLoad (exec_hsLoad s))

/-- h_n of the digest's stream (41_hash_stream.md R154). -/
theorem streamAdvance_eq_hashValue (s : State) (n : Nat) :
    streamAdvance (streamIncr s) n (streamBase s) = BitVec.ofNat 64 (hashValue s n) :=
  BitVec.eq_of_toNat_eq (by rw [toNat_streamAdvance, BitVec.toNat_ofNat, hashValue, Nat.mod_mod]; rfl)

/-- HS_LOAD, commands that leave the loaded stream to HS_NEXT, and one HS_NEXT more: what it returns and leaves. -/
theorem stream_of_runCommands {s t : State} {l : List Instr} (hl : ∀ i ∈ l, loadsStream i = false)
    (h : runCommands (.hsLoad :: (l ++ [.hsNext])) s = .next t) :
    t.result = BitVec.ofNat 64 (hashValue s (l.count .hsNext)) ∧
      t.hsBase = BitVec.ofNat 64 (hashValue s (l.count .hsNext + 1)) := by
  obtain ⟨u, hload, h⟩ := runCommands_cons_eq_next_iff.1 h
  obtain ⟨v, hrun, h⟩ := runCommands_append_eq_next_iff.1 h
  obtain ⟨w, hnext, h⟩ := runCommands_cons_eq_next_iff.1 h
  cases h
  have hv := (streamAt_of_exec_hsLoad hload).of_runCommands hl hrun
  rw [Nat.zero_add] at hv
  obtain ⟨hres, hs⟩ := hv.of_exec_hsNext hnext
  exact ⟨hres.trans (streamAdvance_eq_hashValue ..), hs.base_eq.trans (streamAdvance_eq_hashValue ..)⟩

theorem exists_runCommands_result_eq_hashValue (s : State) (n : Nat) :
    ∃ t, runCommands (.hsLoad :: List.replicate (n + 1) .hsNext) s = .next t ∧
      t.result = BitVec.ofNat 64 (hashValue s n) := by
  obtain ⟨t, ht⟩ := hsLoad_replicate_hsNext_completes s (n + 1)
  refine ⟨t, ht, ?_⟩
  rw [List.replicate_succ'] at ht
  have hl : ∀ i ∈ List.replicate n Instr.hsNext, loadsStream i = false := fun i hi => by
    rw [List.eq_of_mem_replicate hi]; rfl
  simpa using (stream_of_runCommands hl ht).1

theorem loadsStream_eq_false_iff (i : Instr) :
    loadsStream i = false ↔ i ≠ .hsLoad ∧ i ≠ .fltAdd ∧ i ≠ .fltRemove ∧ i ≠ .fltContains := by
  cases i <;> decide

/-- Settles O23. -/
theorem streamClosedForm : Obligations.StreamClosedForm :=
  ⟨fun _ _ _ hl h => stream_of_runCommands (fun i hi => (loadsStream_eq_false_iff i).2 (hl i hi)) h,
    exists_runCommands_result_eq_hashValue⟩

/-- Settles O24: h_n reads no other part of the state. -/
theorem streamDependsOnDigestAlone : Obligations.StreamDependsOnDigestAlone := by
  intro s s' n h0 h1
  obtain ⟨t, ht, hres⟩ := exists_runCommands_result_eq_hashValue s n
  obtain ⟨t', ht', hres'⟩ := exists_runCommands_result_eq_hashValue s' n
  have hh : hashValue s n = hashValue s' n := by rw [hashValue, hashValue, hashIncrement, hashIncrement, h0, h1]
  exact ⟨t, t', ht, ht', by rw [hres, hres', hh]⟩

end Sys2Proof.Machine
end

section
/-! The commands that read the storage by index, VEC_GET and VEC_READ_WORD, and the error clauses of all the counter vector
commands (42_counter_vector.md R175, R176, R180). -/

namespace Sys2Proof.Machine

section
variable {s : State}

theorem indexCheck_of_not_configured (hc : s.configured = false) : indexCheck s = some .notConfigured := by
  simp [indexCheck, hc]

theorem indexCheck_of_ge (hc : s.configured = true) (hn : s.numElements ≤ s.argIndex.toNat) :
    indexCheck s = some .indexError := by
  simp [indexCheck, hc, hn]

/-- The error clauses of a command whose checks are those of 42_counter_vector.md R175. -/
theorem failsWith_of_indexCheck {i : Instr} (hk : commandCheck i s = indexCheck s) :
    (s.configured = false → failsWith i 2#4 s) ∧
      (s.configured = true → s.numElements ≤ s.argIndex.toNat → failsWith i 8#4 s) :=
  ⟨fun hc => failsWith_of_check (hk.trans (indexCheck_of_not_configured hc)),
    fun hc hn => failsWith_of_check (hk.trans (indexCheck_of_ge hc hn))⟩

theorem wordIndexCheck_of_not_configured (hc : s.configured = false) : wordIndexCheck s = some .notConfigured := by
  simp [wordIndexCheck, hc]

theorem wordIndexCheck_of_ge (hc : s.configured = true) (hn : s.numWords.toNat ≤ s.argIndex.toNat) :
    wordIndexCheck s = some .indexError := by
  simp [wordIndexCheck, hc, hn]

theorem wordIndexCheck_ok (hc : s.configured = true) (hj : indexOperand s < s.numWords.toNat) :
    wordIndexCheck s = none := by
  have hj : ¬ s.numWords.toNat ≤ s.argIndex.toNat := Nat.not_le.2 hj
  simp [wordIndexCheck, hc, hj]

/-- In a state that meets the invariant a command whose checks pass completes. -/
theorem exec_of_inv {i : Instr} (h : s.inv = true) (hk : commandCheck i s = none) :
    exec i s = .next (complete (commandEffect i s)) :=
  exec_of_ok hk (commandWords_exist h hk)

theorem exec_vecGet_of_lt (h : s.inv = true) (hc : s.configured = true) (hi : indexOperand s < s.numElements) :
    exec .vecGet s = .next (complete (setResult (fieldGet s (indexOperand s)) s)) :=
  exec_of_inv (i := .vecGet) h (indexCheck_ok hc hi)

/-- A word read has S bits, as a number (20_memory.md R60). -/
theorem toNat_memRead_lt (s : State) (j : Nat) : (memRead s j).toNat < 2 ^ s.wordBits := by
  have hm : s.wordMask.toNat < 2 ^ s.wordBits := by
    have hpos := Nat.two_pow_pos s.wordBits
    have hle : (2 ^ s.wordBits - 1) % 2 ^ 64 ≤ 2 ^ s.wordBits - 1 := Nat.mod_le ..
    rw [State.wordMask, BitVec.toNat_ofNat]
    omega
  rw [← memRead_and_wordMask, BitVec.toNat_and]
  exact Nat.and_lt_two_pow _ hm

end

/-- Settles O27, by what the checks answer; the field is toNat_fieldGet. -/
theorem vecGetReadsCounter : Obligations.VecGetReadsCounter := by
  rintro s _ rfl
  obtain ⟨hcfg, hidx⟩ := failsWith_of_indexCheck (i := .vecGet) (s := s) rfl
  exact ⟨hcfg, hidx, fun h hc hi => ⟨_, exec_vecGet_of_lt h hc hi, toNat_fieldGet s _⟩⟩

/-- Settles O31, by what the checks answer. -/
theorem vecReadWordReturnsWord : Obligations.VecReadWordReturnsWord := by
  rintro s _ rfl
  refine ⟨fun hc => ?_, fun hc hn => ?_, fun h hc hj => ⟨?_, toNat_memRead_lt s _⟩⟩
  · exact failsWith_of_check (i := .vecReadWord) (wordIndexCheck_of_not_configured hc)
  · exact failsWith_of_check (i := .vecReadWord) (wordIndexCheck_of_ge hc hn)
  · exact exec_of_inv (i := .vecReadWord) h (wordIndexCheck_ok hc hj)

end Sys2Proof.Machine
end

section
/-! VEC_SET, VEC_INC and VEC_DEC are one command in three forms: each updates counter ARG_INDEX by a function of its old
value and returns the new one (42_counter_vector.md R177 to R179, R182 to R184). -/

namespace Sys2Proof.Machine

/-- The commands that store a counter by index. -/
def StoresCounter (i : Instr) : Prop := i = .vecSet ∨ i = .vecInc ∨ i = .vecDec

/-- What a command that stores a counter makes of its old value (42_counter_vector.md R177 to R179); the commands that
store none leave it. -/
def counterUpdate : Instr → State → Word → Word
  | .vecSet, s => fun _ => clampToMax s s.argValue
  | .vecInc, s => saturatingInc s.fieldMask
  | .vecDec, _ => saturatingDec
  | _, _ => id

/-- MAXV is the largest number of W bits (42_counter_vector.md R177, R172). -/
theorem toNat_clampToMax {s : State} (h : Layout s) (v : Word) :
    (clampToMax s v).toNat = min v.toNat (2 ^ s.elementBits - 1) := by
  have hm := toNat_fieldMask h.widthLe64
  unfold clampToMax
  split
  · rename_i hlt
    rw [BitVec.lt_def] at hlt
    omega
  · rename_i hle
    rw [BitVec.lt_def] at hle
    omega

/-- The new value of a counter fits in its W bits. -/
theorem keeps_counterUpdate {s : State} (h : Layout s) (i : Instr) : Keeps s.elementBits (counterUpdate i s) := by
  cases i with
  | vecSet => exact fun _ _ => toNat_clampToMax_lt h _
  | vecInc => exact keeps_saturatingInc (toNat_fieldMask_succ h)
  | vecDec => exact keeps_saturatingDec _
  | _ => exact fun _ hv => hv

section
variable {i : Instr} {s : State} (hs : StoresCounter i)
include hs

theorem StoresCounter.commandCheck_eq : commandCheck i s = indexCheck s := by
  obtain rfl | rfl | rfl := hs <;> rfl

theorem StoresCounter.commandEffect_eq : commandEffect i s =
    setResult (counterUpdate i s (fieldGet s (indexOperand s)))
      (updateSlot (counterUpdate i s) s (indexOperand s)) := by
  obtain rfl | rfl | rfl := hs <;> rfl

/-- The command writes the storage, RESULT and ERR only (30_encoding.md R92). -/
theorem StoresCounter.frame : complete (commandEffect i s) =
    { s with words := (commandEffect i s).words, result := (commandEffect i s).result, err := 0#4 } := by
  have hw := writtenBy_complete_commandEffect i s
  obtain rfl | rfl | rfl := hs <;> exact hw.symm

/-- The update depends on nothing that the command itself writes. -/
theorem StoresCounter.counterUpdate_commandEffect :
    counterUpdate i (complete (commandEffect i s)) = counterUpdate i s := by
  rw [hs.frame]
  obtain rfl | rfl | rfl := hs <;> rfl

/-- Every counter after the command: ARG_INDEX's is updated and the others are as they were. -/
theorem StoresCounter.fieldGet_commandEffect (hl : Layout s) (hi : indexOperand s < s.numElements) (j : Nat) :
    fieldGet (complete (commandEffect i s)) j =
      if j = indexOperand s then counterUpdate i s (fieldGet s (indexOperand s)) else fieldGet s j := by
  rw [fieldGet_complete, hs.commandEffect_eq, fieldGet_setResult]
  exact fieldGet_updateSlot hl (keeps_counterUpdate hl i) hi j

/-- A bit that belongs to no counter below N is as it was (42_counter_vector.md R184). -/
theorem StoresCounter.getLsbD_commandEffect_of_not_counterBit (hl : Layout s) (hi : indexOperand s < s.numElements)
    {j b : Nat} (hb : counterBit s j b = false) :
    (memRead (complete (commandEffect i s)) j).getLsbD b = (memRead s j).getLsbD b := by
  have hv := keeps_counterUpdate hl i _ (toNat_fieldGet_lt s (indexOperand s))
  rw [memRead_complete, hs.commandEffect_eq, memRead_setResult, updateSlot, getLsbD_memRead_fieldPut hl hi hv]
  refine if_neg ?_
  rintro ⟨rfl, hlo, hhi⟩
  rw [hl.counterBit hi hlo hhi] at hb
  cases hb

theorem StoresCounter.exec_completes (h : s.inv = true) (hc : s.configured = true)
    (hi : indexOperand s < s.numElements) : exec i s = .next (complete (commandEffect i s)) :=
  exec_of_inv h (hs.commandCheck_eq.trans (indexCheck_ok hc hi))

/-- The three clauses of a command that stores a counter, for a new value that is `n` as a number (42_counter_vector.md
R177 to R179). -/
theorem StoresCounter.clauses {n : Nat}
    (hn : Layout s → (counterUpdate i s (fieldGet s (indexOperand s))).toNat = n) :
    (s.configured = false → failsWith i 2#4 s) ∧
    (s.configured = true → s.numElements ≤ indexOperand s → failsWith i 8#4 s) ∧
    (s.inv = true → s.configured = true → indexOperand s < s.numElements →
      ∃ t, exec i s = .next t ∧ t = { s with words := t.words, result := t.result, err := 0#4 } ∧
        t.result.toNat = n ∧ fieldGet t (indexOperand s) = t.result ∧
        (∀ j, j ≠ indexOperand s → fieldGet t j = fieldGet s j) ∧
        ∀ k, k ≠ wordIndex s (indexOperand s) → memRead t k = memRead s k) := by
  obtain ⟨hcfg, hidx⟩ := failsWith_of_indexCheck (hs.commandCheck_eq (s := s))
  refine ⟨hcfg, hidx, fun h hc hi => ?_⟩
  have hl := Layout.of_inv h hc
  have hres : (commandEffect i s).result = counterUpdate i s (fieldGet s (indexOperand s)) := by
    rw [hs.commandEffect_eq, setResult_result]
  refine ⟨_, hs.exec_completes h hc hi, hs.frame, ?_, ?_, fun j hj => ?_, fun k hk => ?_⟩
  · rw [complete_result, hres, hn hl]
  · rw [hs.fieldGet_commandEffect hl hi, if_pos rfl, complete_result, hres]
  · rw [hs.fieldGet_commandEffect hl hi, if_neg hj]
  · rw [memRead_complete, hs.commandEffect_eq, memRead_setResult]
    exact memRead_fieldPut_of_ne s _ hk

/-- n of the commands in a row complete and apply the update n times. -/
theorem StoresCounter.exists_runCommands_replicate (n : Nat) (h : s.inv = true) (hc : s.configured = true)
    (hi : indexOperand s < s.numElements) :
    ∃ t, runCommands (List.replicate n i) s = .next t ∧
      fieldGet t (indexOperand s) = (counterUpdate i s)^[n] (fieldGet s (indexOperand s)) := by
  induction n generalizing s with
  | zero => exact ⟨s, rfl, rfl⟩
  | succ n ih =>
    have hx := hs.exec_completes h hc hi
    have hidx : indexOperand (complete (commandEffect i s)) = indexOperand s := by rw [hs.frame]; rfl
    have hnum : (complete (commandEffect i s)).numElements = s.numElements := by rw [hs.frame]; rfl
    have hcfg : (complete (commandEffect i s)).configured = true := by rw [hs.frame]; exact hc
    obtain ⟨t, ht, hv⟩ := ih (inv_exec h hx) hcfg (by rwa [hidx, hnum])
    rw [List.replicate_succ, runCommands_cons _ hx, Function.iterate_succ_apply]
    refine ⟨t, ht, ?_⟩
    rw [hidx, hs.counterUpdate_commandEffect, hs.fieldGet_commandEffect (Layout.of_inv h hc) hi, if_pos rfl] at hv
    exact hv

end

theorem storesCounter_vecSet : StoresCounter .vecSet := .inl rfl

theorem storesCounter_vecInc : StoresCounter .vecInc := .inr (.inl rfl)

theorem storesCounter_vecDec : StoresCounter .vecDec := .inr (.inr rfl)

/-- Settles O28: the new value is the clamped operand. -/
theorem vecSetClampsAndStores : Obligations.VecSetClampsAndStores := by
  rintro s _ rfl
  exact storesCounter_vecSet.clauses fun hl => toNat_clampToMax hl _

/-- The saturating increment of a counter, as a number (42_counter_vector.md R178, R182). -/
theorem toNat_iterate_counterUpdate_vecInc {s : State} (hl : Layout s) (n i : Nat) :
    ((counterUpdate .vecInc s)^[n] (fieldGet s i)).toNat = min ((fieldGet s i).toNat + n) (2 ^ s.elementBits - 1) := by
  have hm := toNat_fieldMask hl.widthLe64
  have hv := toNat_fieldGet_lt s i
  rw [← hm]
  exact toNat_iterate_saturatingInc n (by omega)

/-- Settles O29: the new value is the saturating increment of the old one. -/
theorem vecIncSaturates : Obligations.VecIncSaturates := by
  rintro s _ rfl
  exact storesCounter_vecInc.clauses fun hl => toNat_iterate_counterUpdate_vecInc hl 1 _

/-- Settles O30: the new value is the saturating decrement of the old one. -/
theorem vecDecSaturates : Obligations.VecDecSaturates := by
  rintro s _ rfl
  exact storesCounter_vecDec.clauses fun _ => toNat_saturatingDec _

/-- Settles O34: the n updates, read as numbers. -/
theorem repeatedIncAndDecSaturate : Obligations.RepeatedIncAndDecSaturate := by
  intro s n h hc hi
  obtain ⟨t, ht, hinc⟩ := storesCounter_vecInc.exists_runCommands_replicate n h hc hi
  obtain ⟨u, hu, hdec⟩ := storesCounter_vecDec.exists_runCommands_replicate n h hc hi
  exact ⟨⟨t, ht, hinc ▸ toNat_iterate_counterUpdate_vecInc (Layout.of_inv h hc) n _⟩,
    ⟨u, hu, hdec ▸ toNat_iterate_saturatingDec n _⟩⟩

/-- Settles O33, by whether a check of the command fails. -/
theorem counterCommandsDoNotInterfere : Obligations.CounterCommandsDoNotInterfere := by
  intro i s t hs h hx
  have hs : StoresCounter i := hs
  obtain ⟨code, -, rfl⟩ | ⟨hk, -, rfl⟩ := exec_cases hx
  · exact ⟨fun _ _ => rfl, fun _ _ _ => rfl⟩
  · obtain ⟨hc, hi⟩ := indexCheck_none (hs.commandCheck_eq.symm.trans hk)
    have hl := Layout.of_inv h hc
    refine ⟨fun j hj => ?_, fun j b hb => hs.getLsbD_commandEffect_of_not_counterBit hl hi hb⟩
    rw [hs.fieldGet_commandEffect hl hi]
    exact if_neg hj

/-- Settles O32: VEC_GET reads the counter that VEC_SET stored. -/
theorem setThenGetReturnsClampedValue : Obligations.SetThenGetReturnsClampedValue := by
  intro s h hc hi
  obtain ⟨-, -, hok⟩ := storesCounter_vecSet.clauses (s := s) fun hl => toNat_clampToMax hl _
  obtain ⟨t, hset, hframe, hres, hstored, -⟩ := hok h hc hi
  have hidx : indexOperand t = indexOperand s := by rw [hframe]; rfl
  have hnum : t.numElements = s.numElements := by rw [hframe]; rfl
  have hcfg : t.configured = true := by rw [hframe]; exact hc
  have hget := exec_vecGet_of_lt (inv_exec h hset) hcfg (by rwa [hidx, hnum])
  refine ⟨_, by rw [runCommands_cons _ hset, runCommands_cons _ hget, runCommands], rfl, ?_⟩
  rw [complete_result, setResult_result, hidx, hstored, hres]

end Sys2Proof.Machine
end

section
/-! The storage bit by bit: what FieldPut replaces, and that 1 bits lie in counters only (42_counter_vector.md R174,
R181). -/

namespace Sys2Proof.Machine

/-- Settles O36. -/
theorem fieldPutReplacesExactlyItsField : Obligations.FieldPutReplacesExactlyItsField := by
  rintro s i v h hc hi hv _ rfl k b
  have hpos := Nat.two_pow_pos s.elementBits
  exact getLsbD_memRead_fieldPut (Layout.of_inv h hc) hi (by omega) k b

/-- A 1 bit of a word in use belongs to a counter below N (10_state.md R46 b, c). -/
theorem counterBit_of_getLsbD_memRead {s : State} (h : s.inv = true) {j b : Nat} (hu : s.inUse j = true)
    (hb : (memRead s j).getLsbD b = true) : counterBit s j b = true := by
  obtain ⟨-, -, hs, -⟩ := inv_parts h
  obtain ⟨-, hlisted⟩ := (storageOk_iff s).1 hs
  rw [memRead, if_pos hu, BitVec.getLsbD_and, Bool.and_eq_true] at hb
  obtain hz | hm := Memory.read_eq_zero_or_mem s.words j
  · rw [hz] at hb
    simp at hb
  · exact (hlisted _ hm).2 b hb.1

/-- Where the bit of a counter lies: in a slot that exists, of a counter below N. -/
theorem counterBit_slot {s : State} {j b : Nat} (h : counterBit s j b = true) :
    b < s.wordBits ∧ (s.wordBits - 1 - b) / s.elementBits < s.epw.toNat ∧
      j * s.epw.toNat + (s.wordBits - 1 - b) / s.elementBits < s.numElements := by
  simpa [counterBit, and_assoc] using h

/-- Settles O35: a 1 bit there would belong to a counter, in a slot from EPW up or with an index from N up. -/
theorem paddingAndUnusedSlotsReadZero : Obligations.PaddingAndUnusedSlotsReadZero := by
  intro s j b h hc hj
  have hl := Layout.of_inv h hc
  have hpos := hl.widthPos
  have hu : s.inUse j = true := by simp [State.inUse, hc, hj]
  refine ⟨fun hpad => Bool.eq_false_iff.2 fun hb => ?_,
    fun slot hslot hunused hlo hhi => Bool.eq_false_iff.2 fun hb => ?_⟩
  · obtain ⟨-, hlt, -⟩ := counterBit_slot (counterBit_of_getLsbD_memRead h hu hb)
    rw [Nat.div_lt_iff_lt_mul hpos, Nat.mul_comm] at hlt
    omega
  · obtain ⟨-, -, hlt⟩ := counterBit_slot (counterBit_of_getLsbD_memRead h hu hb)
    have hfit : s.elementBits * (slot + 1) ≤ s.wordBits := (Nat.mul_le_mul_left _ hslot).trans hl.fieldsFit
    rw [Nat.mul_succ] at hfit hlo
    have hdiv : (s.wordBits - 1 - b) / s.elementBits = slot := by
      rw [Nat.div_eq_iff hpos, Nat.mul_comm]
      omega
    omega

end Sys2Proof.Machine
end

section
/-! The filter commands: the slots they act on and the errors they can raise (43_filter.md R211, R213, R218). -/

namespace Sys2Proof.Machine

/-- The filter commands (43_filter.md R210). -/
def FilterCommand (i : Instr) : Prop := i = .fltAdd ∨ i = .fltRemove ∨ i = .fltContains

theorem filterCommand_fltAdd : FilterCommand .fltAdd := .inl rfl

theorem filterCommand_fltRemove : FilterCommand .fltRemove := .inr (.inl rfl)

theorem filterCommand_fltContains : FilterCommand .fltContains := .inr (.inr rfl)

/-- The recursion of the model gives the hash values h_t modulo N (43_filter.md R211). -/
theorem filterSlots_eq_slotIndices (s : State) : filterSlots s = slotIndices s := slotSequence_eq ..

/-- Settles O40. -/
theorem filterSlotsAreHashValuesModN : Obligations.FilterSlotsAreHashValuesModN := fun s =>
  ⟨filterSlots_eq_slotIndices s, length_slotSequence .., fun hn _ => filterSlots_lt hn⟩

theorem mode_ne_raw {s : State} (hm : s.cfgMode ≠ 0#2) : s.mode ≠ .raw := mt (mode_raw_iff s).1 hm

section
variable {i : Instr} {s : State}

theorem filterCheck_ok (hc : s.configured = true) (hm : s.mode ≠ .raw) : filterCheck s = none := by
  simp [filterCheck, hc, hm]

theorem removeCheck_ok (hc : s.configured = true) (hr : s.mode ≠ .raw) (hb : s.mode ≠ .bitset) :
    removeCheck s = none := by
  simp [removeCheck, hc, hr, hb]

theorem removeCheck_of_bitset (hc : s.configured = true) (hb : s.mode = .bitset) : removeCheck s = some .modeError := by
  simp [removeCheck, hc, hb]

theorem FilterCommand.commandCheck_of_not_configured (hi : FilterCommand i) (hc : s.configured = false) :
    commandCheck i s = some .notConfigured := by
  obtain rfl | rfl | rfl := hi <;> simp [commandCheck, filterCheck, removeCheck, hc]

theorem FilterCommand.commandCheck_of_raw (hi : FilterCommand i) (hc : s.configured = true) (hm : s.mode = .raw) :
    commandCheck i s = some .modeError := by
  obtain rfl | rfl | rfl := hi <;> simp [commandCheck, filterCheck, removeCheck, hc, hm]

/-- The error clauses that the filter commands share (43_filter.md R213). -/
theorem FilterCommand.error_clauses (hi : FilterCommand i) :
    (s.configured = false → failsWith i 2#4 s) ∧ (s.configured = true → s.cfgMode = 0#2 → failsWith i 9#4 s) :=
  ⟨fun hc => failsWith_of_check (hi.commandCheck_of_not_configured hc),
    fun hc hm => failsWith_of_check (hi.commandCheck_of_raw hc ((mode_raw_iff s).2 hm))⟩

/-- A filter command's checks raise NOT_CONFIGURED or MODE_ERROR, never INDEX_ERROR (43_filter.md R213, R218). -/
theorem FilterCommand.code_of_commandCheck {code : ErrorCode} (hi : FilterCommand i)
    (h : commandCheck i s = some code) : code = .notConfigured ∨ code = .modeError := by
  have hfilter : filterCheck s = some code → code = .notConfigured ∨ code = .modeError := fun h => by
    unfold filterCheck at h
    split_ifs at h <;> cases h <;> simp
  have hremove : removeCheck s = some code → code = .notConfigured ∨ code = .modeError := fun h => by
    unfold removeCheck at h
    split_ifs at h <;> cases h <;> simp
  obtain rfl | rfl | rfl := hi
  · exact hfilter h
  · exact hremove h
  · exact hfilter h

end

/-- Settles O43: the codes of the checks, and filterSlots_lt with N ≥ 1. -/
theorem filtersNeverRaiseIndexError : Obligations.FiltersNeverRaiseIndexError := by
  refine ⟨fun i s t hi hx => ?_, fun s h hc hm _ => filterSlots_lt (inv_filter h hc (mode_ne_raw hm)).1⟩
  obtain ⟨code, hk, rfl⟩ | ⟨-, -, rfl⟩ := exec_cases hx
  · obtain rfl | rfl := FilterCommand.code_of_commandCheck hi hk <;> simp [errorBits]
  · simp

end Sys2Proof.Machine
end

section
/-! What a filter command leaves in the hash stream (43_filter.md R212). -/

namespace Sys2Proof.Machine

/-- A filter command that completes leaves the digest's stream with k values emitted. -/
theorem FilterCommand.streamAt {i : Instr} (hi : FilterCommand i) (s : State) :
    StreamAt (streamIncr s) (streamBase s) s.numHashes (complete (commandEffect i s)) := by
  obtain rfl | rfl | rfl := hi <;> exact ⟨rfl, rfl, rfl⟩

/-- So do one HS_LOAD and k HS_NEXTs (41_hash_stream.md R154). -/
theorem streamAt_hsLoad_replicate_hsNext {s u : State} {k : Nat}
    (h : runCommands (.hsLoad :: List.replicate k .hsNext) s = .next u) :
    StreamAt (streamIncr s) (streamBase s) k u := by
  obtain ⟨t, hload, hrun⟩ := runCommands_cons_eq_next_iff.1 h
  have hl : ∀ i ∈ List.replicate k Instr.hsNext, loadsStream i = false := fun i hi => by
    rw [List.eq_of_mem_replicate hi]; rfl
  simpa using (streamAt_of_exec_hsLoad hload).of_runCommands hl hrun

theorem FilterCommand.commandEffect_result {i : Instr} (hi : FilterCommand i) (hne : i ≠ .fltContains) (s : State) :
    (commandEffect i s).result = s.result := by
  obtain rfl | rfl | rfl := hi
  · simp [commandEffect]
  · simp [commandEffect]
  · exact absurd rfl hne

/-- Settles O41, by whether a check of the command fails. -/
theorem filterLeavesStreamAsLoadAndNexts : Obligations.FilterLeavesStreamAsLoadAndNexts := by
  intro i s t hi hx
  have hi : FilterCommand i := hi
  obtain ⟨code, -, rfl⟩ | ⟨-, -, rfl⟩ := exec_cases hx
  · exact ⟨fun he => absurd he (errorBits_ne_zero code), fun _ => rfl, fun _ => ⟨rfl, rfl, rfl⟩⟩
  · obtain ⟨hv, hb, hn⟩ := hi.streamAt s
    obtain ⟨u, hu⟩ := hsLoad_replicate_hsNext_completes s s.numHashes
    obtain ⟨huv, hub, hun⟩ := streamAt_hsLoad_replicate_hsNext hu
    refine ⟨fun _ => ⟨?_, hn, hv, u, hu, hb.trans hub.symm, hn.trans hun.symm, hv.trans huv.symm⟩,
      fun hne => hi.commandEffect_result hne s, fun he => absurd rfl he⟩
    rw [hb, streamAdvance_eq_hashValue]

end Sys2Proof.Machine
end

section
/-! FLT_ADD and FLT_REMOVE are one command in two forms: each updates a counter once for every slot that hits it, in
whatever order (43_filter.md R214, R215, R217). -/

namespace Sys2Proof.Machine

/-- A command that completes and whose effect is one update for each slot, with the stream left k values on. -/
theorem exists_exec_of_slotUpdates {i : Instr} {f : Word → Word} {s : State} (h : s.inv = true)
    (hc : s.configured = true) (hm : s.mode ≠ .raw) (hk : commandCheck i s = none)
    (he : commandEffect i s = filterStream s ((filterSlots s).foldl (updateSlot f) s)) (hf : Keeps s.elementBits f) :
    ∃ t, exec i s = .next t ∧
      t = { s with words := t.words, hsBase := BitVec.ofNat 64 (hashValue s s.numHashes), hsIncr := hashIncrement s,
                   hsValid := true, err := 0#4 } ∧
      (∀ j, fieldGet t j = f^[(slotIndices s).count j] (fieldGet s j)) ∧
      ∀ k, k ∉ (slotIndices s).map (wordIndex s) → memRead t k = memRead s k := by
  refine ⟨_, exec_of_inv h hk, ?_, fun j => ?_, fun k hnot => ?_⟩ <;> rw [he]
  · rw [← streamAdvance_eq_hashValue, foldl_updateSlot_eq]
    rfl
  · rw [fieldGet_complete, fieldGet_filterStream, ← filterSlots_eq_slotIndices]
    exact fieldGet_foldl_updateSlot _ (Layout.of_inv h hc) hf (fun _ => filterSlots_lt (inv_filter h hc hm).1) j
  · rw [memRead_complete, memRead_filterStream]
    rw [← filterSlots_eq_slotIndices] at hnot
    exact memRead_foldl_updateSlot f _ s fun j hj hw => hnot (List.mem_map.2 ⟨j, hj, hw.symm⟩)

/-- A set bit stays 1 however often it is hit (43_filter.md R214, BITSET). -/
theorem toNat_iterate_addUpdate_of_bitset {s : State} (hb : s.mode = .bitset) (l : List Nat) (v : Word) (i : Nat) :
    ((addUpdate s.mode)^[l.count i] v).toNat = if i ∈ l then 1 else v.toNat := by
  rw [hb]
  simp only [addUpdate, if_true, iterate_setBit, List.count_eq_zero]
  by_cases hi : i ∈ l <;> simp [hi]

/-- A 4-bit counter rises by the number of hits, up to 15 (43_filter.md R214, COUNTING). -/
theorem toNat_iterate_addUpdate_of_counting {s : State} (hm : s.mode = .counting) (hw : s.elementBits = 4) (n i : Nat) :
    ((addUpdate s.mode)^[n] (fieldGet s i)).toNat = min 15 ((fieldGet s i).toNat + n) := by
  have hlt := toNat_fieldGet_lt s i
  rw [hw] at hlt
  rw [hm, Nat.min_comm]
  exact toNat_iterate_saturatingInc n (Nat.le_of_lt_succ hlt)

theorem elementBits_of_counting {s : State} (h : s.inv = true) (hc : s.configured = true) (hm : s.mode = .counting) :
    s.elementBits = 4 := by
  have hw := (inv_filter h hc (by simp [hm])).2.2
  simpa [hm] using hw

/-- Settles O37: the updates of the slots, read as numbers in each mode. -/
theorem fltAddInsertsKey : Obligations.FltAddInsertsKey := by
  intro s
  obtain ⟨hcfg, hraw⟩ := filterCommand_fltAdd.error_clauses (s := s)
  refine ⟨hcfg, hraw, fun h hc hm => ?_⟩
  have hm := mode_ne_raw hm
  obtain ⟨t, hx, hframe, hcount, hmem⟩ := exists_exec_of_slotUpdates (i := .fltAdd) h hc hm (filterCheck_ok hc hm) rfl
    (keeps_addUpdate h hc hm)
  refine ⟨t, hx, hframe, fun i _ => ⟨fun hb => ?_, fun hn => ?_⟩, hmem⟩
  · rw [hcount, toNat_iterate_addUpdate_of_bitset ((mode_bitset_iff s).2 hb)]
  · have hn := (mode_counting_iff s).2 hn
    rw [hcount, toNat_iterate_addUpdate_of_counting hn (elementBits_of_counting h hc hn)]

/-- Settles O38: the updates of the slots, read as numbers. -/
theorem fltRemoveDeletesKey : Obligations.FltRemoveDeletesKey := by
  intro s
  obtain ⟨hcfg, hraw⟩ := filterCommand_fltRemove.error_clauses (s := s)
  refine ⟨hcfg, fun hc hm => hm.elim (hraw hc) fun hb => ?_, fun h hc hr hb => ?_⟩
  · exact failsWith_of_check (i := .fltRemove) (removeCheck_of_bitset hc ((mode_bitset_iff s).2 hb))
  · have hr := mode_ne_raw hr
    have hk := removeCheck_ok hc hr (mt (mode_bitset_iff s).1 hb)
    obtain ⟨t, hx, hframe, hcount, hmem⟩ := exists_exec_of_slotUpdates (i := .fltRemove) h hc hr hk rfl
      (keeps_saturatingDec _)
    exact ⟨t, hx, hframe, fun i _ => by rw [hcount, toNat_iterate_saturatingDec], hmem⟩

/-- Updates in another order leave every counter the same: only how often an index occurs counts (43_filter.md R217). -/
theorem fieldGet_foldl_updateSlot_perm {f : Word → Word} {l l' : List Nat} {s : State} (hp : l.Perm l')
    (h : Layout s) (hf : Keeps s.elementBits f) (hl : ∀ i ∈ l', i < s.numElements) (j : Nat) :
    fieldGet (l.foldl (updateSlot f) s) j = fieldGet (l'.foldl (updateSlot f) s) j := by
  rw [fieldGet_foldl_updateSlot l h hf (fun i hi => hl i (hp.mem_iff.1 hi)), fieldGet_foldl_updateSlot l' h hf hl,
    hp.count_eq]

/-- Settles O42. -/
theorem filterOrderDoesNotMatter : Obligations.FilterOrderDoesNotMatter := by
  intro s l h hc hm hp i
  have hm := mode_ne_raw hm
  have hl := Layout.of_inv h hc
  have hlt : ∀ i ∈ filterSlots s, i < s.numElements := fun _ => filterSlots_lt (inv_filter h hc hm).1
  rw [foldl_addSlot, foldl_addSlot, removeSlot_eq]
  exact ⟨fieldGet_foldl_updateSlot_perm hp hl (keeps_addUpdate h hc hm) hlt i,
    fieldGet_foldl_updateSlot_perm hp hl (keeps_saturatingDec _) hlt i⟩

end Sys2Proof.Machine
end

section
/-! FLT_CONTAINS, and what it answers after FLT_ADD and FLT_REMOVE of one key (43_filter.md R216, R221). -/

namespace Sys2Proof.Machine

/-- Settles O39: the fold of the k tests is their conjunction. -/
theorem fltContainsTestsAllSlots : Obligations.FltContainsTestsAllSlots := by
  intro s
  obtain ⟨hcfg, hraw⟩ := filterCommand_fltContains.error_clauses (s := s)
  refine ⟨hcfg, hraw, fun h hc hm => ?_⟩
  rw [exec_of_inv (i := .fltContains) h (filterCheck_ok hc (mode_ne_raw hm)), commandEffect, foldl_testSlot,
    filterSlots_eq_slotIndices, ← streamAdvance_eq_hashValue]
  rfl

/-- The slots depend on the digest and the configuration alone (43_filter.md R211). -/
theorem slotIndices_congr {s t : State} (hn : t.cfgNumElements = s.cfgNumElements)
    (hk : t.cfgNumHashes = s.cfgNumHashes) (h0 : t.digest0 = s.digest0) (h1 : t.digest1 = s.digest1) :
    slotIndices t = slotIndices s := by
  rw [← filterSlots_eq_slotIndices, ← filterSlots_eq_slotIndices, filterSlots_congr hn hk h0 h1]

/-- With k at least 1 there is a slot to test. -/
theorem exists_mem_slotIndices {s : State} (hk : 0 < s.numHashes) : ∃ i, i ∈ slotIndices s :=
  ⟨_, List.mem_map_of_mem (List.mem_range.2 hk)⟩

theorem slotIndices_lt {s : State} (h : s.inv = true) (hc : s.configured = true) (hm : s.mode ≠ .raw) :
    ∀ i ∈ slotIndices s, i < s.numElements := by
  rw [← filterSlots_eq_slotIndices]
  exact fun _ => filterSlots_lt (inv_filter h hc hm).1

/-- A filter command keeps the mode, N and the slots, whether it fails a check or completes. -/
theorem FilterCommand.keeps_slots {i : Instr} {s t : State} (hi : FilterCommand i) (hx : exec i s = .next t) :
    t.configured = s.configured ∧ t.cfgMode = s.cfgMode ∧ t.numElements = s.numElements ∧
      slotIndices t = slotIndices s := by
  obtain ⟨code, -, rfl⟩ | ⟨-, -, rfl⟩ := exec_cases hx
  · exact ⟨rfl, rfl, rfl, rfl⟩
  · have h1 : i ≠ .configure := by obtain rfl | rfl | rfl := hi <;> decide
    have h2 : i ≠ .release := by obtain rfl | rfl | rfl := hi <;> decide
    rw [commandEffect_frame h1 h2]
    exact ⟨rfl, rfl, rfl, rfl⟩

/-- Settles O46: a counter at 0 that c slots hit rises to min 15 c and falls by c. -/
theorem addThenRemoveRestoresAbsence : Obligations.AddThenRemoveRestoresAbsence := by
  intro s h hc hm hzero
  have hraw : s.mode ≠ .raw := mode_ne_raw (by simp [hm])
  obtain ⟨-, -, hadd⟩ := fltAddInsertsKey s
  obtain ⟨a, hxa, -, hrise, -⟩ := hadd h hc (by simp [hm])
  obtain ⟨hca, hma, hna, hsa⟩ := filterCommand_fltAdd.keeps_slots hxa
  have hia := inv_exec h hxa
  obtain ⟨-, -, hremove⟩ := fltRemoveDeletesKey a
  obtain ⟨r, hxr, -, hfall, -⟩ := hremove hia (hca.trans hc) (by simp [hma, hm]) (by simp [hma, hm])
  obtain ⟨hcr, hmr, -, hsr⟩ := filterCommand_fltRemove.keeps_slots hxr
  have hback : ∀ i ∈ slotIndices s, fieldGet r i = 0#64 := fun i hi => by
    have hlt := slotIndices_lt h hc hraw i hi
    refine BitVec.eq_of_toNat_eq ?_
    rw [hfall i (hna ▸ hlt), (hrise i hlt).2 hm, hzero i hi, hsa, BitVec.toNat_ofNat]
    omega
  obtain ⟨-, -, hcontains⟩ := fltContainsTestsAllSlots r
  have hxc := hcontains (inv_exec hia hxr) (hcr.trans (hca.trans hc)) (by simp [hmr, hma, hm])
  have hrun := (runCommands_cons _ hxa).trans ((runCommands_cons _ hxr).trans (runCommands_cons [] hxc))
  refine ⟨_, hrun, rfl, if_neg fun hall => ?_, hback⟩
  obtain ⟨i, hi⟩ := exists_mem_slotIndices (inv_filter h hc hraw).2.1
  exact hall i (hsr.trans hsa ▸ hi) (hback i hi)

end Sys2Proof.Machine
end

section
/-! Counters never fall but by the commands named in 43_filter.md R220: first an update, then a command, a step and a run;
so a key that was added is found. -/

namespace Sys2Proof.Machine

/-- `f` lowers no value of at most `w` bits. -/
def Raises (w : Nat) (f : Word → Word) : Prop := ∀ v : Word, v.toNat < 2 ^ w → v.toNat ≤ (f v).toNat

theorem raises_saturatingInc {w : Nat} {top : Word} (ht : top.toNat + 1 = 2 ^ w) : Raises w (saturatingInc top) := by
  intro v hv
  rw [toNat_saturatingInc (by omega)]
  omega

/-- A step of FLT_ADD lowers no counter: in BITSET the largest value is 1, in COUNTING it saturates. -/
theorem raises_addUpdate {s : State} (h : s.inv = true) (hc : s.configured = true) (hm : s.mode ≠ .raw) :
    Raises s.elementBits (addUpdate s.mode) := by
  obtain ⟨-, -, ⟨hb, hw⟩ | ⟨hn, hw⟩⟩ := inv_filter h hc hm
  · rw [hb, hw]
    exact fun _ hv => Nat.le_of_lt_succ hv
  · rw [hn, hw]
    exact raises_saturatingInc (by decide)

theorem toNat_le_iterate {w : Nat} {f : Word → Word} (hf : Keeps w f) (hr : Raises w f) (n : Nat) {v : Word}
    (hv : v.toNat < 2 ^ w) : v.toNat ≤ (f^[n] v).toNat := by
  induction n generalizing v with
  | zero => exact Nat.le_refl _
  | succ n ih => exact (hr v hv).trans (ih (hf v hv))

/-- Updates that lower no value lower no counter. -/
theorem fieldGet_le_foldl_updateSlot {f : Word → Word} {l : List Nat} {s : State} (h : Layout s)
    (hf : Keeps s.elementBits f) (hr : Raises s.elementBits f) (hl : ∀ i ∈ l, i < s.numElements) (j : Nat) :
    (fieldGet s j).toNat ≤ (fieldGet (l.foldl (updateSlot f) s) j).toNat := by
  rw [fieldGet_foldl_updateSlot l h hf hl]
  exact toNat_le_iterate hf hr _ (toNat_fieldGet_lt s j)

/-- The commands that can lower a counter (43_filter.md R220). -/
def loweringCommands : List Instr := [.fltRemove, .vecSet, .vecDec, .release]

/-- A word lowers counters as an event exactly when its command can. -/
theorem lowersCounters_commandEvent {c : Word} {i : Instr} (hd : decode c = .ok i) :
    lowersCounters (commandEvent c) = decide (i ∈ loweringCommands) := by
  have hcmd : admitted 64 (regOffset .cmd) = some .cmd := admitted_regOffset .cmd
  simp [lowersCounters, commandEvent, hcmd, hd, loweringCommands, Bool.or_assoc]

/-- A command whose checks pass lowers no counter, the four of R220 apart. -/
theorem fieldGet_le_commandEffect {i : Instr} {s : State} (h : s.inv = true) (hc : s.configured = true)
    (hk : commandCheck i s = none) (hi : i ∉ loweringCommands) (j : Nat) :
    (fieldGet s j).toNat ≤ (fieldGet (commandEffect i s) j).toNat := by
  have hl := Layout.of_inv h hc
  cases i with
  | fltRemove | vecSet | vecDec | release => exact absurd (by decide) hi
  | configure => exact Bool.noConfusion (hc.symm.trans (configureCheck_none hk).1)
  | vecInc =>
    have hm := toNat_fieldMask_succ hl
    exact fieldGet_le_foldl_updateSlot (l := [indexOperand s]) hl (keeps_saturatingInc hm) (raises_saturatingInc hm)
      (by simpa using (indexCheck_none hk).2) j
  | fltAdd =>
    have hm := (filterCheck_none hk).2
    exact fieldGet_le_foldl_updateSlot hl (keeps_addUpdate h hc hm) (raises_addUpdate h hc hm)
      (fun _ => filterSlots_lt (inv_filter h hc hm).1) j
  | nop | clearErr | vecGet | vecReadWord | hsLoad | hsNext | fltContains => exact Nat.le_refl _

@[simp] theorem commandEffect_pending (i : Instr) (s : State) : (commandEffect i s).pending = s.pending := by
  cases i <;> simp [commandEffect]

/-- `t` comes after `s` in a run in which nothing lowered a counter. -/
structure CountersKept (s t : State) : Prop where
  configured : t.configured = true
  geometry : SameGeometry s t
  le : ∀ i, (fieldGet s i).toNat ≤ (fieldGet t i).toNat

theorem CountersKept.refl {s : State} (hc : s.configured = true) : CountersKept s s :=
  ⟨hc, ⟨rfl, rfl, rfl, rfl, rfl, rfl⟩, fun _ => Nat.le_refl _⟩

theorem SameGeometry.trans {s t u : State} (h : SameGeometry s t) (h' : SameGeometry t u) : SameGeometry s u :=
  ⟨h'.cfgMode.trans h.cfgMode, h'.cfgNumElements.trans h.cfgNumElements, h'.cfgElementBits.trans h.cfgElementBits,
    h'.cfgNumHashes.trans h.cfgNumHashes, h'.epw.trans h.epw, h'.numWords.trans h.numWords⟩

theorem CountersKept.trans {s t u : State} (h : CountersKept s t) (h' : CountersKept t u) : CountersKept s u :=
  ⟨h'.configured, h.geometry.trans h'.geometry, fun i => (h.le i).trans (h'.le i)⟩

/-- A command keeps the counters, the four of R220 apart, whether it fails a check or completes. -/
theorem countersKept_exec {i : Instr} {s t : State} (h : s.inv = true) (hc : s.configured = true)
    (hi : i ∉ loweringCommands) (hx : exec i s = .next t) : CountersKept s t ∧ t.pending = s.pending := by
  have ht : t.configured = true := by
    obtain heq | ⟨-, ht⟩ | ⟨rfl, -⟩ := exec_configured hx
    · exact heq.trans hc
    · exact ht
    · exact absurd (by decide) hi
  have hg := sameGeometry_exec hx hc ht
  obtain ⟨code, -, rfl⟩ | ⟨hk, -, rfl⟩ := exec_cases hx
  · exact ⟨⟨ht, hg, fun _ => Nat.le_refl _⟩, rfl⟩
  · exact ⟨⟨ht, hg, fieldGet_le_commandEffect h hc hk hi⟩, commandEffect_pending i s⟩

/-- A host write other than to CMD leaves every counter of a configured engine, whose configuration is locked. -/
theorem fieldGet_regWrite {s : State} (hc : s.configured = true) (r : Reg) (v : Word) (j : Nat) :
    fieldGet (regWrite s r v) j = fieldGet s j := by
  cases r with
  | cfgMode | cfgNumElements | cfgElementBits | cfgNumHashes => rw [regWrite_of_locked hc rfl]
  | _ => rfl

@[simp] theorem regWrite_pending (s : State) (r : Reg) (v : Word) : (regWrite s r v).pending = s.pending := by
  obtain h | h := regWrite_eq_self_or_regStore s r v <;> rw [h]
  cases r <;> rfl

/-- A step on an event that cannot lower a counter keeps the counters and performs that event alone. -/
theorem countersKept_step {s t : State} {e : HostEvent} {rest : List HostEvent} (h : s.inv = true)
    (hc : s.configured = true) (hp : s.pending = e :: rest) (hl : lowersCounters e = false)
    (hstep : step s = .next t) : CountersKept s t ∧ t.pending = rest := by
  have hg : t.configured = true → SameGeometry s t := sameGeometry_step hstep hc
  obtain ⟨r, -, rfl⟩ | ⟨r, v, -, -, rfl⟩ | ⟨c, i, rfl, hd, hx⟩ | ⟨c, d, -, -, rfl⟩ | ⟨running, held, rfl, -⟩ :=
    step_cases hp hstep
  · exact ⟨⟨hc, hg hc, fun _ => Nat.le_refl _⟩, rfl⟩
  · have ht := (regWrite_configured { s with pending := rest } r v).trans hc
    have hle j := (congrArg BitVec.toNat (fieldGet_regWrite (s := { s with pending := rest }) hc r v j)).ge
    exact ⟨⟨ht, hg ht, hle⟩, regWrite_pending ..⟩
  · rw [lowersCounters_commandEvent hd, decide_eq_false_iff_not] at hl
    obtain ⟨⟨ht, -, hle⟩, hpend⟩ := countersKept_exec (s := { s with pending := rest }) h hc hl hx
    exact ⟨⟨ht, hg ht, hle⟩, hpend⟩
  · exact ⟨⟨hc, hg hc, fun _ => Nat.le_refl _⟩, rfl⟩
  · cases hl

/-- Settles O44. -/
theorem countersOnlyLoweredByNamedCommands : Obligations.CountersOnlyLoweredByNamedCommands := by
  intro s t e rest h hc hp hl hstep
  obtain ⟨⟨hct, hg, hle⟩, -⟩ := countersKept_step h hc hp hl hstep
  exact ⟨hct, congrArg BitVec.toNat hg.cfgNumElements, fun i _ => hle i⟩

/-- Steps none of whose events can lower a counter keep the invariant and the counters. -/
theorem countersKept_run {n : Nat} {s u : State} (h : s.inv = true) (hc : s.configured = true)
    (hrun : core.run n s = .next u) (hl : ∀ e ∈ s.pending.take n, lowersCounters e = false) :
    u.inv = true ∧ CountersKept s u := by
  induction n generalizing s with
  | zero =>
    cases hrun
    exact ⟨h, .refl hc⟩
  | succ n ih =>
    obtain ⟨t, hstep, hrun⟩ := core_run_succ hrun
    have hinv := stepKeepsTheInvariant s t h hstep
    cases hp : s.pending with
    | nil =>
      rw [step_of_pending_nil hp] at hstep
      cases hstep
      exact ih h hc hrun (by simp [hp])
    | cons e rest =>
      rw [hp, List.take_succ_cons, List.forall_mem_cons] at hl
      obtain ⟨hk, hpend⟩ := countersKept_step h hc hp hl.1 hstep
      obtain ⟨hu, hku⟩ := ih hinv hk.configured hrun (hpend ▸ hl.2)
      exact ⟨hu, hk.trans hku⟩

/-- FLT_ADD leaves every counter of its key above 0: a bit set, or a counter raised at least once. -/
theorem fieldGet_pos_of_fltAdd {s a : State} (h : s.inv = true) (hc : s.configured = true) (hm : s.cfgMode ≠ 0#2)
    (hx : exec .fltAdd s = .next a) : ∀ i ∈ slotIndices s, 0 < (fieldGet a i).toNat := by
  intro i hi
  obtain ⟨-, -, hadd⟩ := fltAddInsertsKey s
  obtain ⟨t, hxt, -, hcount, -⟩ := hadd h hc hm
  cases hx.symm.trans hxt
  obtain ⟨hbitset, hcounting⟩ := hcount i (slotIndices_lt h hc (mode_ne_raw hm) i hi)
  obtain ⟨-, -, ⟨hb, -⟩ | ⟨hn, -⟩⟩ := inv_filter h hc (mode_ne_raw hm)
  · rw [hbitset ((mode_bitset_iff s).1 hb), if_pos hi]
    exact Nat.one_pos
  · have hpos := List.count_pos_iff.2 hi
    rw [hcounting ((mode_counting_iff s).1 hn)]
    omega

/-- Settles O45: the run keeps the configuration, so the slots are those of FLT_ADD, whose counters it left above 0 and
nothing lowered since. -/
theorem noFalseNegatives : Obligations.NoFalseNegatives := by
  intro s a u n h hc hm hx hrun hl h0 h1
  have hpos := fieldGet_pos_of_fltAdd h hc hm hx
  obtain ⟨hka, -⟩ := countersKept_exec h hc (by decide) hx
  obtain ⟨hu, hku⟩ := countersKept_run (inv_exec h hx) hka.configured hrun hl
  obtain ⟨hcu, hg, -⟩ := hka.trans hku
  have hslots : slotIndices u = slotIndices s := slotIndices_congr hg.cfgNumElements hg.cfgNumHashes h0 h1
  obtain ⟨-, -, hcontains⟩ := fltContainsTestsAllSlots u
  refine ⟨_, hcontains hu hcu (by rwa [hg.cfgMode]), rfl, if_pos fun i hi hz => ?_⟩
  have hle := (hpos i (hslots ▸ hi)).trans_le (hku.le i)
  simp [hz] at hle

end Sys2Proof.Machine
end

section
/-! Errors: which codes each command's checks can raise (60_exceptions.md R243), and what a command word written to CMD does
to the error record (R240, R241). -/

namespace Sys2Proof.Machine

section
variable {s : State} {code : ErrorCode}

/-- The codes of CONFIGURE, in the order of its checks (40_control.md R122). -/
theorem code_of_configureCheck (h : configureCheck s = some code) :
    code = .alreadyConfigured ∨ code = .cfgBadMode ∨ code = .cfgBadWidth ∨ code = .cfgBadSize ∨ code = .cfgBadHashes := by
  unfold configureCheck at h
  split_ifs at h <;> cases h <;> simp

theorem code_of_configuredCheck (h : configuredCheck s = some code) : code = .notConfigured := by
  unfold configuredCheck at h
  split_ifs at h
  cases h
  rfl

theorem code_of_indexCheck (h : indexCheck s = some code) : code = .notConfigured ∨ code = .indexError := by
  unfold indexCheck at h
  split_ifs at h <;> cases h <;> simp

theorem code_of_wordIndexCheck (h : wordIndexCheck s = some code) : code = .notConfigured ∨ code = .indexError := by
  unfold wordIndexCheck at h
  split_ifs at h <;> cases h <;> simp

theorem code_of_streamCheck (h : streamCheck s = some code) : code = .streamNotLoaded := by
  unfold streamCheck at h
  split_ifs at h
  cases h
  rfl

/-- The codes a command's checks raise are those whose row of the table names the command (60_exceptions.md R243). -/
theorem errorBits_mem_raisableCodes {i : Instr} (h : commandCheck i s = some code) :
    errorBits code ∈ raisableCodes i := by
  cases i with
  | nop | clearErr | hsLoad => cases h
  | configure => obtain rfl | rfl | rfl | rfl | rfl := code_of_configureCheck h <;> decide
  | release => obtain rfl := code_of_configuredCheck h; decide
  | vecGet | vecSet | vecInc | vecDec => obtain rfl | rfl := code_of_indexCheck h <;> decide
  | vecReadWord => obtain rfl | rfl := code_of_wordIndexCheck h <;> decide
  | hsNext => obtain rfl := code_of_streamCheck h; decide
  | fltAdd => obtain rfl | rfl := filterCommand_fltAdd.code_of_commandCheck h <;> decide
  | fltRemove => obtain rfl | rfl := filterCommand_fltRemove.code_of_commandCheck h <;> decide
  | fltContains => obtain rfl | rfl := filterCommand_fltContains.code_of_commandCheck h <;> decide

end

/-- Settles O49, by whether a check of the command fails. -/
theorem commandsRaiseOnlyTheirCodes : Obligations.CommandsRaiseOnlyTheirCodes := by
  intro i s t hx
  obtain ⟨code, hk, rfl⟩ | ⟨-, -, rfl⟩ := exec_cases hx
  · exact .inr (errorBits_mem_raisableCodes hk)
  · exact .inl rfl

/-- The opcode a failing command records is the OPC field of the word that selected it (60_exceptions.md R241). -/
theorem opcode_of_decode {c : Word} {i : Instr} (hd : decode c = .ok i) : opcode i = opcField c := by
  obtain ⟨-, hi⟩ := (decode_eq_ok_iff_fields c i).1 hd
  exact opcode_of_instrOfOpcode _ i hi

/-- A word written to CMD that gives a next state takes an error under its own OPC, or is a command that completes. -/
theorem step_commandEvent_cases {s t : State} {rest : List HostEvent} {c : Word}
    (hp : s.pending = commandEvent c :: rest) (h : step s = .next t) :
    (∃ code, t = raiseError (opcField c) code { s with pending := rest }) ∨
    ∃ i, decode c = .ok i ∧ t = complete (commandEffect i { s with pending := rest }) := by
  rw [step_of_pending_cons hp] at h
  cases hd : decode c with
  | error d =>
    rw [performEvent_illegal hd] at h
    cases h
    exact .inl ⟨.illegalCommand, rfl⟩
  | ok i =>
    rw [performEvent_command hd] at h
    obtain ⟨code, -, rfl⟩ | ⟨-, -, rfl⟩ := exec_cases h
    · exact .inl ⟨code, by rw [opcode_of_decode hd]⟩
    · exact .inr ⟨i, rfl, rfl⟩

/-- Settles O48: an error taken is raiseError, and only CLEAR_ERR's effect touches the record. -/
theorem errorsArePrecise : Obligations.ErrorsArePrecise := by
  intro s t rest c hp hstep
  obtain ⟨code, rfl⟩ | ⟨i, hd, rfl⟩ := step_commandEvent_cases hp hstep
  · exact ⟨fun _ => rfl, fun he => absurd he (errorBits_ne_zero code)⟩
  · refine ⟨fun he => absurd rfl he, fun _ hc => ?_⟩
    have hi : i ≠ .clearErr := by
      rintro rfl
      exact hc ((decode_eq_ok_iff c .clearErr).1 hd)
    exact ⟨by simp [commandEffect_errSticky, hi], commandEffect_errOp hi _⟩

end Sys2Proof.Machine
end

section
/-! Reset: the next state is that of a fresh engine of the same build, and what was held at the bus gets no answer from the
engine (70_reset_and_hazards.md R270, R272). -/

namespace Sys2Proof.Machine

/-- A reset, as the next host event; the command it abandons leaves no trace (70_reset_and_hazards.md R270). -/
theorem step_reset {s : State} {rest : List HostEvent} {running : Option Word} {held : List Access}
    (hp : s.pending = .reset running held :: rest) : step s = .next (performReset held { s with pending := rest }) := by
  rw [step_of_pending_cons hp, performEvent]

/-- Settles O13. -/
theorem resetEventRestoresResetState : Obligations.ResetEventRestoresResetState := by
  refine fun s rest => ⟨fun running held hp => ⟨_, step_reset hp, rfl, rfl, rfl⟩, fun a hp => ?_⟩
  rw [step_of_pending_cons hp, performEvent]

end Sys2Proof.Machine
end

section
/-! The registers that a host write stores keep their value over every event but such a write, and reset
(70_reset_and_hazards.md R283). Said of what the host reads, once for all eight registers. -/

namespace Sys2Proof.Machine

/-- A host write stores into the register: the RW and RW-L rows of 10_state.md R21. -/
def hostStored (q : Reg) : Bool :=
  match accessType q with
  | .readWrite | .lockedReadWrite => true
  | .readOnly | .writeOnly => false

/-- A value stored into one register is not seen in another. -/
theorem regRead_regStore_of_ne {r q : Reg} (h : r ≠ q) (s : State) (v : Word) :
    regRead (regStore s r v) q = regRead s q := by
  cases r with
  | id | params | geom | status | hsBase | hsIncr | result | cmd => rfl
  | _ => cases q <;> simp [regRead, regStore, geomWord, statusWord] at h ⊢

theorem regRead_regWrite_of_ne {r q : Reg} (h : r ≠ q) (s : State) (v : Word) :
    regRead (regWrite s r v) q = regRead s q := by
  obtain heq | heq := regWrite_eq_self_or_regStore s r v <;> rw [heq]
  exact regRead_regStore_of_ne h s v

theorem regRead_performRead (r q : Reg) (s : State) : regRead (performRead r s) q = regRead s q := by
  cases q <;> rfl

section
variable {q : Reg} (hq : hostStored q = true)
include hq

theorem regRead_raiseError_of_hostStored (op : Byte) (code : ErrorCode) (s : State) :
    regRead (raiseError op code s) q = regRead s q := by
  cases q with
  | id | params | geom | status | hsBase | hsIncr | result | cmd => cases hq
  | _ => rfl

/-- No row of the opcode table names such a register as state written (30_encoding.md R92). -/
theorem regRead_writtenBy_of_hostStored (i : Instr) (s t : State) : regRead (writtenBy i s t) q = regRead s q := by
  cases q with
  | id | params | geom | status | hsBase | hsIncr | result | cmd => cases hq
  | _ => cases i <;> rfl

/-- No command writes such a register, whether it fails a check or completes (70_reset_and_hazards.md R283). -/
theorem regRead_exec_of_hostStored {i : Instr} {s t : State} (h : exec i s = .next t) : regRead t q = regRead s q := by
  obtain ⟨code, -, rfl⟩ | ⟨-, -, rfl⟩ := exec_cases h
  · exact regRead_raiseError_of_hostStored hq ..
  · rw [← writtenBy_complete_commandEffect]
    exact regRead_writtenBy_of_hostStored hq ..

/-- Such a register reads differently after a step only if the step was the host's write of it, or reset. -/
theorem eq_write_of_regRead_ne {s t : State} {e : HostEvent} {rest : List HostEvent} (hp : s.pending = e :: rest)
    (hstep : step s = .next t) (hreset : ∀ c h, e ≠ .reset c h) (hne : regRead t q ≠ regRead s q) :
    ∃ v, e = .access (.write 64 (regOffset q) v) := by
  rw [← regRead_pending s rest] at hne
  obtain ⟨r, -, rfl⟩ | ⟨r, v, -, rfl, rfl⟩ | ⟨c, i, -, -, hx⟩ | ⟨c, d, -, -, rfl⟩ | ⟨running, held, rfl, -⟩ :=
    step_cases hp hstep
  · exact absurd (regRead_performRead ..) hne
  · obtain rfl : r = q := of_not_not fun h => hne (regRead_regWrite_of_ne h ..)
    exact ⟨v, rfl⟩
  · exact absurd (regRead_exec_of_hostStored hq hx) hne
  · exact absurd (regRead_raiseError_of_hostStored hq ..) hne
  · exact absurd rfl (hreset running held)

end

/-- A field of at most 64 bits is determined by the register that holds it from bit 0. -/
theorem place_zero_injective {n : Nat} (hn : n ≤ 64) {v w : BitVec n} (h : place v 0 = place w 0) : v = w := by
  apply BitVec.eq_of_getLsbD_eq
  intro b hb
  have hbit := congrArg (fun x : Word => x.getLsbD b) h
  have h64 : b < 64 := by omega
  simpa [h64] using hbit

/-- Settles O53: each clause is eq_write_of_regRead_ne at its register. -/
theorem operandsPersistAcrossCommands : Obligations.OperandsPersistAcrossCommands := by
  intro s t e rest hp hstep hreset
  have own (q : Reg) (hq : hostStored q = true) (hne : regRead t q ≠ regRead s q) :
      ∃ v, e = .access (.write 64 (regOffset q) v) := eq_write_of_regRead_ne hq hp hstep hreset hne
  exact ⟨own .argIndex rfl, own .argValue rfl, own .digest0 rfl, own .digest1 rfl,
    fun hne => own .cfgMode rfl (mt (place_zero_injective (by decide)) hne), own .cfgNumElements rfl,
    fun hne => own .cfgElementBits rfl (mt (place_zero_injective (by decide)) hne),
    fun hne => own .cfgNumHashes rfl (mt (place_zero_injective (by decide)) hne)⟩

end Sys2Proof.Machine
end

section
/-! Every command completes: an error is a next state, and the words a command reaches exist (70_reset_and_hazards.md R287). -/

namespace Sys2Proof.Machine

/-- Settles O56, by whether a check of the command fails. -/
theorem everyCommandCompletes : Obligations.EveryCommandCompletes := by
  intro i s h
  cases hk : commandCheck i s with
  | some code => exact ⟨_, exec_of_check hk⟩
  | none => exact ⟨_, exec_of_inv h hk⟩

end Sys2Proof.Machine
end

section
/-! The host's sizing rejects its bad inputs before it writes a register (70_reset_and_hazards.md R274, R278). -/

namespace Sys2Proof.Machine

/-- The inputs the sizing accepts (70_reset_and_hazards.md R274). -/
theorem sizingInputsAccepted_iff (n : Nat) (p : Binary64) :
    sizingInputsAccepted n p = true ↔ 0 < n ∧ ∃ x, p = .finite x ∧ 0 < x ∧ x < 1 := by
  cases p <;> simp [sizingInputsAccepted]

/-- Rejected inputs have no size, whatever logarithm the host has. -/
theorem sizeFilter_of_rejected {n : Nat} {p : Binary64} (h : sizingInputsAccepted n p = false) (ln : Rat → Rat) :
    sizeFilter ln n p = none := by
  cases p with
  | finite x => simp [sizeFilter, h]
  | infinite => rfl
  | nan => rfl

/-- Rejected inputs give the host no statement to write. -/
theorem filterBoot_of_rejected {n : Nat} {p : Binary64} (h : sizingInputsAccepted n p = false) (counting : Bool) :
    filterBoot counting n p = none := by
  rw [filterBoot, sizeFilter_of_rejected h]
  rfl

/-- Settles O57: each bad input is rejected by sizingInputsAccepted_iff. -/
theorem sizingRejectsBadInputs : Obligations.SizingRejectsBadInputs := by
  refine ⟨fun counting n p hbad => filterBoot_of_rejected ?_ counting, fun counting nb nh hk => if_pos (.inr hk)⟩
  refine Bool.eq_false_iff.2 fun hacc => ?_
  obtain ⟨hn, x, rfl, h0, h1⟩ := (sizingInputsAccepted_iff n p).1 hacc
  obtain rfl | hp | hp | ⟨y, hy, hle⟩ := hbad
  · exact absurd hn (Nat.lt_irrefl 0)
  · cases hp
  · cases hp
  · cases hy
    exact hle.elim (not_le.2 h0) (not_le.2 h1)

end Sys2Proof.Machine
end
